-- ==== Sys2Proof/Word.lean ====
section
/-!
DEFINITION. The words of the engine: levels, bytes, 16-bit values, 128-bit descriptors (spec/00_scope.md R5, spec/30_encoding.md R60).
-/
namespace Sys2Proof

/-- A level is one bit, `true` = 1 = high (R5). -/
abbrev Level := Bool

/-- A byte (R5). -/
abbrev Byte := BitVec 8

/-- A 16-bit value: an operand field or `RESULT` (R60, R17). -/
abbrev Half := BitVec 16

/-- A command descriptor, bits 127 to 0 (R60). -/
abbrev Descriptor := BitVec 128

end Sys2Proof
end

