-- ==== Sys2Proof/Syntax.lean ====
section
/-!
DEFINITION. The 26 commands (spec/30_encoding.md R61, R62), one constructor for each row of spec/opcode_table.json. Integer operands and
RAM indices are naturals (R58, R57: "A model may take the operands as unbounded naturals", R60); which of them a descriptor can carry is
WellFormed's matter. A byte operand is carried as the natural of its field, its low 8 bits taken by the meaning (R59).
-/
namespace Sys2Proof

/-- A command and its operands (R61). -/
inductive Instr where
  /-- D2B `v` (R70). -/
  | d2b (v : Nat)
  /-- B2D `b` (R71). -/
  | b2d (v : Nat)
  /-- WRBYTE `b` (R80). -/
  | wrbyte (v : Nat)
  /-- RDBYTE (R81). -/
  | rdbyte
  /-- RDREG `a` (R90). -/
  | rdreg (a : Byte)
  /-- WRREG `a`, `b` (R91). -/
  | wrreg (a : Byte) (v : Nat)
  /-- PWRREG `a`, `b` (R92). -/
  | pwrreg (a : Byte) (v : Nat)
  /-- SETYEAR `v` (R111). -/
  | setyear (v : Nat)
  /-- SETMONTH `v` (R112). -/
  | setmonth (v : Nat)
  /-- SETDAY `v` (R113). -/
  | setday (v : Nat)
  /-- SETHOUR `v` (R114). -/
  | sethour (v : Nat)
  /-- SETMIN `v` (R115). -/
  | setmin (v : Nat)
  /-- SETSEC `v` (R116). -/
  | setsec (v : Nat)
  /-- SETWDAY `v` (R117). -/
  | setwday (v : Nat)
  /-- GETYEAR (R102). -/
  | getyear
  /-- GETMONTH (R103). -/
  | getmonth
  /-- GETDAY (R104). -/
  | getday
  /-- GETHOUR (R105). -/
  | gethour
  /-- GETMIN (R106). -/
  | getmin
  /-- GETSEC (R107). -/
  | getsec
  /-- GETWDAY (R108). -/
  | getwday
  /-- START (R120). -/
  | start
  /-- PAUSE (R121). -/
  | pause
  /-- RDRAM `i` (R122). -/
  | rdram (i : Nat)
  /-- WRRAM `i`, `b` (R123). -/
  | wrram (i : Nat) (v : Nat)
  /-- SETDATETIME `y`, `mo`, `d`, `w`, `h`, `mi`, `s` (R124). -/
  | setdatetime (y mo d w h mi s : Nat)
  deriving DecidableEq, Repr

end Sys2Proof
end

