-- ==== Sys2Proof/Decode.lean ====
section
/-!
DEFINITION. The decoder and the encoder of the command descriptor (spec/30_encoding.md R60 to R66). The decoder is total: a descriptor
whose `op` is not assigned is rejected by name (R66), and no field but `op` chooses the command (R63).
-/
namespace Sys2Proof

/-- The assigned opcodes, in the order of the opcode map (R62). -/
inductive Opcode where
  | d2b | b2d | wrbyte | rdbyte | rdreg | wrreg | pwrreg
  | setyear | setmonth | setday | sethour | setmin | setsec | setwday
  | getyear | getmonth | getday | gethour | getmin | getsec | getwday
  | start | pause | rdram | wrram | setdatetime
  deriving DecidableEq, Repr

/-- The value of `op` for each command (R62). -/
def Opcode.code : Opcode → Byte
  | .d2b => 0x01
  | .b2d => 0x02
  | .wrbyte => 0x10
  | .rdbyte => 0x11
  | .rdreg => 0x20
  | .wrreg => 0x21
  | .pwrreg => 0x22
  | .setyear => 0x30
  | .setmonth => 0x31
  | .setday => 0x32
  | .sethour => 0x33
  | .setmin => 0x34
  | .setsec => 0x35
  | .setwday => 0x36
  | .getyear => 0x40
  | .getmonth => 0x41
  | .getday => 0x42
  | .gethour => 0x43
  | .getmin => 0x44
  | .getsec => 0x45
  | .getwday => 0x46
  | .start => 0x50
  | .pause => 0x51
  | .rdram => 0x60
  | .wrram => 0x61
  | .setdatetime => 0x70

/-- Every assigned opcode (R62). -/
def Opcode.all : List Opcode :=
  [.d2b, .b2d, .wrbyte, .rdbyte, .rdreg, .wrreg, .pwrreg] ++
  [.setyear, .setmonth, .setday, .sethour, .setmin, .setsec, .setwday] ++
  [.getyear, .getmonth, .getday, .gethour, .getmin, .getsec, .getwday] ++
  [.start, .pause, .rdram, .wrram, .setdatetime]

/-- The seven commands that are not in the source's public surface (R62, R63). -/
def Opcode.internal : Opcode → Bool
  | .d2b | .b2d | .wrbyte | .rdbyte | .rdreg | .wrreg | .pwrreg => true
  | .setyear | .setmonth | .setday | .sethour | .setmin | .setsec | .setwday
  | .getyear | .getmonth | .getday | .gethour | .getmin | .getsec | .getwday
  | .start | .pause | .rdram | .wrram | .setdatetime => false

/-- The opcode with a given `op`, if it is assigned (R62). -/
def Opcode.ofCode (c : Byte) : Option Opcode := Opcode.all.find? fun o => o.code == c

/-- The opcode of a command (R62). -/
def Instr.opcode : Instr → Opcode
  | .d2b _ => .d2b
  | .b2d _ => .b2d
  | .wrbyte _ => .wrbyte
  | .rdbyte => .rdbyte
  | .rdreg _ => .rdreg
  | .wrreg _ _ => .wrreg
  | .pwrreg _ _ => .pwrreg
  | .setyear _ => .setyear
  | .setmonth _ => .setmonth
  | .setday _ => .setday
  | .sethour _ => .sethour
  | .setmin _ => .setmin
  | .setsec _ => .setsec
  | .setwday _ => .setwday
  | .getyear => .getyear
  | .getmonth => .getmonth
  | .getday => .getday
  | .gethour => .gethour
  | .getmin => .getmin
  | .getsec => .getsec
  | .getwday => .getwday
  | .start => .start
  | .pause => .pause
  | .rdram _ => .rdram
  | .wrram _ _ => .wrram
  | .setdatetime _ _ _ _ _ _ _ => .setdatetime

/-! The fields of a descriptor (R60). -/

/-- `op`, bits 127:120 (R60). -/
def opField (d : Descriptor) : Byte := d.extractLsb' 120 8

/-- `a`, bits 119:112 (R60). -/
def aField (d : Descriptor) : Byte := d.extractLsb' 112 8

/-- `v0` to `v6`: `vField k` is bits 111-16k : 96-16k (R60). -/
def vField (k : Nat) (d : Descriptor) : Half := d.extractLsb' (96 - 16 * k) 16

/-- Why a descriptor is illegal (R66, R63). -/
inductive Illegal where
  /-- `op` is not in the opcode map (R66). -/
  | reservedOpcode (op : Byte)
  /-- `op` is internal and `PUBLIC_ONLY` is true (R63). -/
  | internalOpcode (o : Opcode)
  deriving DecidableEq, Repr

/-- The decoder's verdict. -/
inductive Decoded where
  | accepted (i : Instr)
  | illegal (r : Illegal)
  deriving DecidableEq, Repr

/-- The operands of a command, taken from its fields; a field not listed for it is ignored (R61). -/
def operandsOf (o : Opcode) (d : Descriptor) : Instr :=
  match o with
  | .d2b => .d2b (vField 0 d).toNat
  | .b2d => .b2d (vField 0 d).toNat
  | .wrbyte => .wrbyte (vField 0 d).toNat
  | .rdbyte => .rdbyte
  | .rdreg => .rdreg (aField d)
  | .wrreg => .wrreg (aField d) (vField 0 d).toNat
  | .pwrreg => .pwrreg (aField d) (vField 0 d).toNat
  | .setyear => .setyear (vField 0 d).toNat
  | .setmonth => .setmonth (vField 0 d).toNat
  | .setday => .setday (vField 0 d).toNat
  | .sethour => .sethour (vField 0 d).toNat
  | .setmin => .setmin (vField 0 d).toNat
  | .setsec => .setsec (vField 0 d).toNat
  | .setwday => .setwday (vField 0 d).toNat
  | .getyear => .getyear
  | .getmonth => .getmonth
  | .getday => .getday
  | .gethour => .gethour
  | .getmin => .getmin
  | .getsec => .getsec
  | .getwday => .getwday
  | .start => .start
  | .pause => .pause
  | .rdram => .rdram (aField d).toNat
  | .wrram => .wrram (aField d).toNat (vField 0 d).toNat
  | .setdatetime =>
    .setdatetime (vField 0 d).toNat (vField 1 d).toNat (vField 2 d).toNat (vField 3 d).toNat
      (vField 4 d).toNat (vField 5 d).toNat (vField 6 d).toNat

/-- The decoder (R63): `op` chooses the command or the descriptor is illegal; with `PUBLIC_ONLY` the internal opcodes are illegal too. -/
def decode (publicOnly : Bool) (d : Descriptor) : Decoded :=
  match Opcode.ofCode (opField d) with
  | none => .illegal (.reservedOpcode (opField d))
  | some o => if publicOnly && o.internal then .illegal (.internalOpcode o) else .accepted (operandsOf o d)

/-- The instruction the decoder reads from a table row's word (bit 0 the least significant; the row is the whole 128-bit descriptor, R60),
at the default `PUBLIC_ONLY` = false. Bits from `nbits` up are 0. -/
def decodeTableWord (nbits w : Nat) : Option Instr :=
  match decode false (BitVec.ofNat 128 (w % 2 ^ nbits)) with
  | .accepted i => some i
  | .illegal _ => none

/-! The encoder. -/

/-- A descriptor from its fields (R60). -/
def pack (op a : Byte) (v0 v1 v2 v3 v4 v5 v6 : Nat) : Descriptor :=
  op ++ a ++ BitVec.ofNat 16 v0 ++ BitVec.ofNat 16 v1 ++ BitVec.ofNat 16 v2 ++ BitVec.ofNat 16 v3 ++
    BitVec.ofNat 16 v4 ++ BitVec.ofNat 16 v5 ++ BitVec.ofNat 16 v6

/-- A command with one integer operand, in `v0` (R61). -/
def packValue (o : Opcode) (v : Nat) : Descriptor := pack o.code 0 v 0 0 0 0 0 0

/-- A command without operands (R61). -/
def packBare (o : Opcode) : Descriptor := pack o.code 0 0 0 0 0 0 0 0

/-- The descriptor of a command, the fields it does not use zero (R60 to R62). -/
def encode : Instr → Descriptor
  | .d2b v => packValue .d2b v
  | .b2d v => packValue .b2d v
  | .wrbyte v => packValue .wrbyte v
  | .rdbyte => packBare .rdbyte
  | .rdreg a => pack Opcode.rdreg.code a 0 0 0 0 0 0 0
  | .wrreg a v => pack Opcode.wrreg.code a v 0 0 0 0 0 0
  | .pwrreg a v => pack Opcode.pwrreg.code a v 0 0 0 0 0 0
  | .setyear v => packValue .setyear v
  | .setmonth v => packValue .setmonth v
  | .setday v => packValue .setday v
  | .sethour v => packValue .sethour v
  | .setmin v => packValue .setmin v
  | .setsec v => packValue .setsec v
  | .setwday v => packValue .setwday v
  | .getyear => packBare .getyear
  | .getmonth => packBare .getmonth
  | .getday => packBare .getday
  | .gethour => packBare .gethour
  | .getmin => packBare .getmin
  | .getsec => packBare .getsec
  | .getwday => packBare .getwday
  | .start => packBare .start
  | .pause => packBare .pause
  | .rdram i => pack Opcode.rdram.code (BitVec.ofNat 8 i) 0 0 0 0 0 0 0
  | .wrram i v => pack Opcode.wrram.code (BitVec.ofNat 8 i) v 0 0 0 0 0 0
  | .setdatetime y mo d w h mi s => pack Opcode.setdatetime.code 0 y mo d w h mi s

/-! The rows of the opcode table (R63). -/

/-- The `match` of a row: `op << 120` (R63). -/
def Opcode.pattern (o : Opcode) : Descriptor := (o.code.setWidth 128) <<< 120

/-- The `mask` of every row: `0xFF << 120` (R63). -/
def opMask : Descriptor := (0xFF : Descriptor) <<< 120

/-- A descriptor selects a row (R63). -/
def Opcode.selects (o : Opcode) (d : Descriptor) : Bool := d &&& opMask == o.pattern

end Sys2Proof
end

