-- ==== Sys2Proof/Config.lean ====
section
/-!
DEFINITION. The parameters of the block that the spec leaves OPEN (spec/00_scope.md R4, spec/92_eei_decisions.md), and the one free
value, the level of a draw (spec/10_state.md R14).
-/
namespace Sys2Proof

/-- The three pin identifiers bound at construction, "three distinct pin identifiers" (R11). A binding with two equal identifiers is
refused (D19): no value of this type has them. -/
structure Pins where
  clk : Nat
  dat : Nat
  ce : Nat
  distinct : (clk != dat && clk != ce && dat != ce) = true
  deriving DecidableEq, Repr

/-- Whether two bindings share a pin (R153). -/
def Pins.overlap (p q : Pins) : Bool :=
  [p.clk, p.dat, p.ce].any fun x => x == q.clk || x == q.dat || x == q.ce

/-- What answers the engine's reads of the data line. -/
inductive Line where
  /-- The general model: every `PinRead` is a draw (R14, D15). -/
  | general
  /-- The reference peer, a fixture (R44 to R48). -/
  | referencePeer
  /-- The FIFO loopback, a fixture (R49). -/
  | fifoLoopback
  /-- The mirror loopback, a fixture (R49). -/
  | mirrorLoopback
  deriving DecidableEq, Repr

/-- The OPEN parameters (R4). They are fixed for an engine: no step changes them. -/
structure Config where
  /-- `PIN_CLK`, `PIN_DAT`, `PIN_CE`. -/
  pins : Pins
  /-- `PIN_IO_CAN_FAIL`, default false (D11). -/
  pinIoCanFail : Bool
  /-- `PUBLIC_ONLY`, default false (D17). -/
  publicOnly : Bool
  /-- D2B above 99 takes the truncated formula instead of being refused; default false (U1, D12). -/
  d2bWraps : Bool
  /-- `WP_MASK` of the reference peer, default 0xFF (R35, D14). -/
  wpMask : Byte
  /-- What answers reads of the data line. -/
  line : Line
  deriving DecidableEq, Repr

/-- The parameters at the spec's defaults, for a given binding. The default `line` is the general model, in which nothing is known of
what is read (DESIGN CHOICE, log 4; safe). -/
def Config.default (p : Pins) : Config :=
  { pins := p, pinIoCanFail := false, publicOnly := false, d2bWraps := false, wpMask := 0xFF, line := .general }

/-- The free value of the model: the level the environment answers to its `k`-th unlisted draw (R14, D15, U6; log 3). It has no
definition, so nothing can be proved of it. -/
opaque Config.drawLevel : Nat → Level

end Sys2Proof
end

