-- ==== Sys2Proof/Machine/State.lean ====
section
/-!
DEFINITION. The state of the engine and of its environment (spec/10_state.md, spec/20_memory.md R44, R49), the reasons a command is not
carried out, and the state after reset (spec/10_state.md R24, spec/70_reset_and_hazards.md R160).
-/
namespace Sys2Proof.Machine

/-- The three lines (R9, R12). -/
inductive Pin where
  | clk | dat | ce
  deriving DecidableEq, Repr

/-- A pin event (R7). -/
inductive PinEvent where
  /-- `W(p,l)`. -/
  | w (p : Pin) (l : Level)
  /-- `R(DAT)=l`; the engine reads no other pin (R14). -/
  | r (l : Level)
  deriving DecidableEq, Repr

/-- `STATUS`, the outcome of the last command (R17, R140). -/
inductive Status where
  /-- 0, done. -/
  | done
  /-- 1, illegal. -/
  | illegal
  /-- 2, refused. -/
  | refused
  /-- 3, io-error. -/
  | ioError
  deriving DecidableEq, Repr

/-- How a command ended: its outcome and its result (R8, R7). -/
structure Report where
  status : Status
  result : Half
  deriving DecidableEq, Repr

/-- The peer's registers, as (write address, byte) pairs. Canonical: addresses strictly rising, each a write address of R32, no byte equal to
what an unlisted address reads as (`Memory.wf`). -/
abbrev Memory := List Host.Cell

/-- One passage of time in the chip between two frames: what its seven time registers would hold after it (R48, `PeerTick`). -/
structure Tick where
  seconds : Byte
  minutes : Byte
  hour : Byte
  day : Byte
  month : Byte
  weekday : Byte
  year : Byte
  deriving DecidableEq, Repr

/-- The reference peer (R44). It is read and changed only while the configuration's `line` is the reference peer. -/
structure Peer where
  /-- `REG` (R44). -/
  mem : Memory
  /-- `n`: the clock pulses seen in this frame (R44). -/
  n : Nat
  /-- `abyte`: the address byte being received (R44). -/
  abyte : Byte
  /-- `dbyte`: the data byte being received (R44). -/
  dbyte : Byte
  /-- `inframe` (R44). -/
  inframe : Bool
  /-- The fixture has refused a frame (R45, R46): it gives no answer any more, and every later read is a draw. -/
  outside : Bool
  /-- The free inputs of `PeerTick` (R48, D18): one is taken when a frame opens; the empty list is the identity. -/
  ticks : List Tick
  deriving DecidableEq, Repr

/-- Why the machine stops. Only `exec` called on a busy engine does; `step` never does. -/
inductive Fault where
  /-- Raised by every meaning when a command is in progress: the port accepts nothing while `BUSY` = 1 and the host has no move
  (R17, R146; U8 "stuck"). Safe. -/
  | portBusy
  deriving DecidableEq, Repr

/-- Why the model declines. -/
inductive Refusal where
  /-- An instruction without a meaning; no arm of `exec` raises it. Safe. -/
  | notModelled (mnemonic : String)
  /-- Raised by `create` on two equal pin identifiers (R11, D19, U7). Safe. -/
  | pinsNotDistinct
  /-- Raised by `create` on a pin that another instance holds, or that an engine holds whose command is in progress (R153, R164, D19,
  U7). Safe. -/
  | pinsShared
  deriving DecidableEq, Repr

end Sys2Proof.Machine

namespace Sys2Proof.Machine

/-- The state. -/
structure State where
  /-- The parameters (R4); no step changes them. -/
  cfg : Config
  /-- `CLK_OUT` (R12). -/
  clkOut : Level
  /-- `CE_OUT` (R12). -/
  ceOut : Level
  /-- `DAT_OUT` (R12). -/
  datOut : Level
  /-- `DAT_OE` (R12). -/
  datOe : Bool
  /-- The command in progress, with which `SEQ` goes (R18); `BUSY` is 1 exactly while there is one (R17). -/
  active : Option Instr
  /-- `SEQ`: the index of the next pin event of the command in progress (R18). -/
  seq : Nat
  /-- `SHREG` (R16). -/
  shreg : Byte
  /-- `BITCNT` (R16). -/
  bitcnt : BitVec 4
  /-- `LATCH` (R16). -/
  latch : Byte
  /-- `RESULT` (R17). -/
  result : Half
  /-- `STATUS` (R17). -/
  status : Status
  /-- The host's descriptors not yet accepted, the one now at `CMD` first (R17, R65; log 2). -/
  cmds : List Descriptor
  /-- The reference peer (R44). -/
  peer : Peer
  /-- `Q` of the FIFO loopback, its head first (R49). -/
  fifo : List Level
  /-- The levels the environment will answer to the next draws (R14; log 3). -/
  answers : List Level
  /-- How many draws the opaque `Config.drawLevel` has answered (log 3). -/
  draws : Nat
  /-- The verdicts of the next pin operations, `true` = fails, read only while `PIN_IO_CAN_FAIL` (R142; log 9). -/
  ioFails : List Bool
  /-- The pin-event trace, newest event first (R7, R21). -/
  log : List PinEvent
  /-- How the commands ended, newest first (R7). -/
  reports : List Report
  deriving DecidableEq, Repr

/-- `BUSY` (R17). -/
def State.busy (s : State) : Bool := s.active.isSome

/-- The pin-event trace in the order of the events (R7). -/
def State.trace (s : State) : List PinEvent := s.log.reverse

/-- The code of `STATUS`, 2 bits (R17, R140). -/
def Status.code : Status → BitVec 2
  | .done => 0
  | .illegal => 1
  | .refused => 2
  | .ioError => 3

/-- The reference peer before any test has filled it: DESIGN CHOICE, every register 0x00 (log 4; R47 leaves it to the test). -/
def Peer.blank : Peer :=
  { mem := [], n := 0, abyte := 0, dbyte := 0, inframe := false, outside := false, ticks := [] }

/-- The pin identifiers of `State.reset`: DESIGN CHOICE 0, 1, 2 (log 6; "the arguments of `create`", R24). -/
def resetPins : Pins := { clk := 0, dat := 1, ce := 2, distinct := rfl }

/-- The machine after reset (R24, R160): `CLK` and `CE` driven low, in that order, the data line released, the port idle. The hidden
registers, which the spec leaves unspecified, are 0 (DESIGN CHOICE, log 5). -/
def State.reset : State :=
  { cfg := Config.default resetPins
    clkOut := false, ceOut := false, datOut := false, datOe := false
    active := none, seq := 0, shreg := 0, bitcnt := 0, latch := 0
    result := 0, status := .done, cmds := []
    peer := Peer.blank, fifo := [], answers := [], draws := 0, ioFails := []
    log := [.w .ce false, .w .clk false], reports := [] }

end Sys2Proof.Machine
end

