-- ==== Sys2Proof/Machine/Operands.lean ====
section
/-!
DEFINITION. Operand forms and address arithmetic (spec/30_encoding.md R55 to R59, spec/20_memory.md R31, R32, R37), the BCD codec
(spec/40_bcd_codec.md R70, R71) and the fields of the calendar (spec/43_field_commands.md R100).
-/
namespace Sys2Proof.Machine

/-- `trunc_8(v)`, the byte operand of a field (R6, R59). -/
def trunc8 (v : Nat) : Byte := BitVec.ofNat 8 v

/-- `zext_16(b)` (R6). -/
def zext16 (b : Byte) : Half := b.setWidth 16

/-! Wire addresses (R32). -/

/-- `ADDR_WP` (R4, R32). -/
def addrWp : Byte := 0x8E

/-- `ADDR_SECONDS` (R4, R32). -/
def addrSeconds : Byte := 0x80

/-- `ADDR_CONTROL` (R4, R32, R36); no command uses it. -/
def addrControl : Byte := 0x90

/-- The read address of a write address: `write + 1` (R31, R56). -/
def readAddr (w : Byte) : Byte := w + 1

/-- The direction bit of an address byte, bit 0: 0 = write frame, 1 = read frame (R54, R31). -/
def readDirection (a : Byte) : Bool := a.getLsbD 0

/-- The write address of a RAM slot index: `0xC0 + 2*(i mod 31)` (R57). -/
def ramWriteAddr (i : Nat) : Byte := BitVec.ofNat 8 (0xC0 + 2 * (i % 31))

/-- The read address of a RAM slot index: `0xC0 + 1 + 2*(i mod 31)` (R57). -/
def ramReadAddr (i : Nat) : Byte := BitVec.ofNat 8 (0xC0 + 1 + 2 * (i % 31))

/-- The 40 write addresses of the register map (R32, R44): even, 0x80 to 0x90 or 0xC0 to 0xFC. -/
def isWriteAddr (a : Nat) : Bool :=
  a % 2 == 0 && (decide (0x80 ≤ a ∧ a ≤ 0x90) || decide (0xC0 ≤ a ∧ a ≤ 0xFC))

/-! The BCD codec. -/

/-- The formula of D2B, `(value / 10) * 16 + (value % 10)`, as a natural (R70, R73). -/
def d2bFormula (v : Nat) : Nat := (v / 10) * 16 + v % 10

/-- D2B as a byte: exact for `v` at most 99, and the truncated formula above (R70, U1). -/
def d2b (v : Nat) : Byte := BitVec.ofNat 8 (d2bFormula v)

/-- B2D, `(byte >> 4) * 10 + (byte & 0xF)` (R71). -/
def b2d (b : Byte) : Nat := (b >>> 4).toNat * 10 + (b &&& 0x0F).toNat

/-- A valid BCD byte: both nibbles at most 9 (R55). -/
def validBcd (b : Byte) : Bool := decide ((b >>> 4).toNat ≤ 9) && decide ((b &&& 0x0F).toNat ≤ 9)

/-! The calendar fields. -/

/-- The seven fields (R9, R100). -/
inductive Field where
  | year | month | day | hour | minute | second | weekday
  deriving DecidableEq, Repr

/-- The write address of a field (R100, R32). -/
def Field.writeAddr : Field → Byte
  | .year => 0x8C
  | .month => 0x88
  | .day => 0x86
  | .hour => 0x84
  | .minute => 0x82
  | .second => 0x80
  | .weekday => 0x8A

/-- The setter's modulus `M` of a field (R100, R58). -/
def Field.modulus : Field → Nat
  | .year => 100
  | .month => 13
  | .day => 32
  | .hour => 24
  | .minute => 60
  | .second => 60
  | .weekday => 8

/-- The getter's post-processing of a field (R100, R101). -/
def Field.post : Field → Nat → Nat
  | .year, d => d + 2000
  | .month, d => d
  | .day, d => d
  | .hour, d => d % 24
  | .minute, d => d % 60
  | .second, d => d % 60
  | .weekday, d => d

/-- The byte a setter writes: `D2B(v mod M)` (R110, R58). -/
def Field.setByte (f : Field) (v : Nat) : Byte := d2b (v % f.modulus)

/-- The result of a getter on the byte read: `post(B2D(r))` (R101). -/
def Field.getValue (f : Field) (r : Byte) : Nat := f.post (b2d r)

end Sys2Proof.Machine
end

