-- ==== Sys2Proof/Machine/Flags.lean ====
section
/-!
DEFINITION. The engine has no status flags and no condition codes (spec/10_state.md R19). What stands here in their place: the halt bit,
"the one status bit the source speaks of", which START and PAUSE change in the byte they have read (spec/20_memory.md R34), and how the
end of a command is reported in `STATUS` and `RESULT` (spec/10_state.md R17, spec/60_exceptions.md R140).
-/
namespace Sys2Proof.Machine

/-- The halt bit of a seconds byte, bit 7 (R34). -/
def haltBit (b : Byte) : Bool := b.getLsbD 7

/-- A seconds byte with bit 7 cleared and the rest as it was: `LATCH & 0x7F` (R120). -/
def clearHalt (b : Byte) : Byte := b &&& 0x7F

/-- A seconds byte with bit 7 set and the rest as it was: `LATCH | 0x80` (R121). -/
def setHalt (b : Byte) : Byte := b ||| 0x80

/-- A command ends: the engine is idle, `STATUS` and `RESULT` say how it ended (R17, R140). -/
def State.endWith (st : Status) (r : Half) (s : State) : State :=
  { s with active := none, status := st, result := r, reports := { status := st, result := r } :: s.reports }

/-- A descriptor the decoder does not accept: no pin event, `STATUS` 1, `RESULT` 0, ready for the next command (R66). -/
def State.takeIllegal (s : State) : State := s.endWith .illegal 0

end Sys2Proof.Machine
end

