-- ==== Sys2Proof/Machine/Ops.lean ====
section
/-!
DEFINITION. The named operations: the peer's registers, the reference peer and the loopbacks (spec/20_memory.md R44 to R49), the two pin
operations (spec/10_state.md R13, R14), the execution of a command's pin operations one after another (spec/10_state.md R16, R18) and the
io-error that abandons it (spec/60_exceptions.md R142), and construction (spec/70_reset_and_hazards.md R160).
-/
namespace Sys2Proof.Machine

/-! ### The peer's registers -/

/-- What a register that the list does not hold reads as: 0x00 (DESIGN CHOICE, log 4). -/
def unlistedByte : Byte := 0

/-- One byte of `REG`. -/
def Memory.read (m : Memory) (a : Nat) : Byte :=
  match m with
  | [] => unlistedByte
  | c :: m => if c.1 = a then c.2 else Memory.read m a

/-- A cell in front of a memory, left out when it holds what an unlisted address reads as. -/
def Memory.cons (a : Nat) (b : Byte) (m : Memory) : Memory :=
  if b = unlistedByte then m else (a, b) :: m

/-- `REG[a] <- b`, keeping the canonical form. -/
def Memory.write (m : Memory) (a : Nat) (b : Byte) : Memory :=
  match m with
  | [] => Memory.cons a b []
  | c :: m =>
    if a < c.1 then Memory.cons a b (c :: m)
    else if a = c.1 then Memory.cons a b m
    else c :: Memory.write m a b

/-- Every address of a memory lies above a bound. -/
def Memory.above (k : Nat) (m : Memory) : Bool := m.all fun c => decide (k < c.1)

/-- The canonical form: addresses strictly rising, each one of the 40 write addresses (R32, R44), no byte equal to `unlistedByte`. -/
def Memory.wf : Memory → Bool
  | [] => true
  | c :: m => Memory.above c.1 m && isWriteAddr c.1 && c.2 != unlistedByte && Memory.wf m

/-! ### The reference peer -/

/-- The fixture refuses the frame: it gives no answer any more (R45, R46; log 10). -/
def Peer.refuse (p : Peer) : Peer := { p with outside := true, inframe := false }

/-- A write frame's effect, the frame-level form (R45). -/
def Peer.write (mask : Byte) (a v : Byte) (p : Peer) : Peer :=
  if readDirection a || !isWriteAddr a.toNat then p.refuse
  else if a = addrWp then { p with mem := p.mem.write a.toNat v }
  else if p.mem.read addrWp.toNat &&& mask = 0 then { p with mem := p.mem.write a.toNat v }
  else p

/-- A read frame's answer, the frame-level form (R46): none where the fixture refuses. -/
def Memory.answer (m : Memory) (a : Byte) : Option Byte :=
  if !readDirection a || !isWriteAddr (a.toNat - 1) then none else some (m.read (a.toNat - 1))

/-- The seven time registers after a tick (R48): they may change in any way while the halt bit is 0, the halt bit itself keeps its value, and
nothing else changes. -/
def Tick.apply (t : Tick) (m : Memory) : Memory :=
  if haltBit (m.read 0x80) then m
  else
    ((((((m.write 0x80 (clearHalt t.seconds)).write 0x82 t.minutes).write 0x84 t.hour).write 0x86 t.day).write 0x88
      t.month).write 0x8A t.weekday).write 0x8C t.year

/-- Time passes between frames: the next tick, or none (the identity, R48). -/
def Peer.tick (p : Peer) : Peer :=
  match p.ticks with
  | [] => p
  | t :: ts => { p with mem := t.apply p.mem, ticks := ts }

/-- A level at bit `k` of a byte: `l << k` (R81). -/
def levelAt (l : Level) (k : Nat) : Byte := (BitVec.ofBool l).setWidth 8 <<< k

/-- `W(CE,1)` while `CE_OUT` was 0 (R46). -/
def Peer.openFrame (p : Peer) : Peer :=
  { p.tick with inframe := true, n := 0, abyte := 0, dbyte := 0 }

/-- `W(CLK,1)` while `CLK_OUT` was 0 and `inframe` (R46). A pulse whose level the peer needs from a line the engine has released, or that
carries data on a line the peer should drive (a write frame at an odd address, R45), is refused (log 11). -/
def Peer.pulse (datOut : Level) (datOe : Bool) (p : Peer) : Peer :=
  if p.n < 8 then
    if datOe then { p with abyte := p.abyte ||| levelAt datOut p.n, n := p.n + 1 } else p.refuse
  else if p.n < 16 then
    if readDirection p.abyte then
      if datOe then p.refuse else { p with n := p.n + 1 }
    else if datOe then { p with dbyte := p.dbyte ||| levelAt datOut (p.n - 8), n := p.n + 1 }
    else p.refuse
  else { p with n := p.n + 1 }

/-- `W(CE,0)` while `inframe` (R46): a write frame takes effect; an incomplete frame is refused. -/
def Peer.closeFrame (mask : Byte) (p : Peer) : Peer :=
  if p.n = 16 then
    if readDirection p.abyte then { p with inframe := false }
    else { p.write mask p.abyte p.dbyte with inframe := false }
  else p.refuse

/-- What the reference peer answers to `PinRead(DAT)` (R46): none where the answer is a draw. -/
def Peer.answer (p : Peer) : Option Level :=
  if p.inframe && readDirection p.abyte && decide (8 ≤ p.n ∧ p.n ≤ 15) then
    (p.mem.answer p.abyte).map fun b => b.getLsbD (p.n - 8)
  else none

/-- The peer after `PinRead(DAT)`: a read frame at an odd address that is not mapped is refused (R46). -/
def Peer.afterRead (p : Peer) : Peer :=
  if p.inframe && readDirection p.abyte && decide (8 ≤ p.n ∧ p.n ≤ 15) && (p.mem.answer p.abyte).isNone then p.refuse else p

/-- The peer after `W(p,l)`, from the levels before it (R46). -/
def Peer.afterWrite (mask : Byte) (clkOut ceOut datOut : Level) (datOe : Bool) (pin : Pin) (l : Level) (p : Peer) : Peer :=
  if p.outside then p
  else
    match pin, l with
    | .ce, true => if ceOut then p else p.openFrame
    | .ce, false => if p.inframe then p.closeFrame mask else p
    | .clk, true => if !clkOut && p.inframe then p.pulse datOut datOe else p
    | .clk, false => p
    | .dat, _ => p

/-- The FIFO loopback's queue after `W(p,l)`, from the levels before it (R49). -/
def fifoAfterWrite (clkOut datOut : Level) (datOe : Bool) (pin : Pin) (l : Level) (q : List Level) : List Level :=
  match pin, l with
  | .clk, true => if clkOut then q else if datOe then q ++ [datOut] else q.tail
  | .clk, false => q
  | .ce, _ => q
  | .dat, _ => q

/-! ### The lines and the pin operations -/

/-- The level of the clock line (R23). -/
def State.clkLine (s : State) : Level := s.clkOut

/-- The level of the chip-select line (R23). -/
def State.ceLine (s : State) : Level := s.ceOut

/-- The level the engine drives on the data line; none while it has released it (R23). -/
def State.datLine (s : State) : Option Level := if s.datOe then some s.datOut else none

/-- The environment after a pin write. -/
def State.peerAfterWrite (p : Pin) (l : Level) (s : State) : Peer :=
  match s.cfg.line with
  | .referencePeer => s.peer.afterWrite s.cfg.wpMask s.clkOut s.ceOut s.datOut s.datOe p l
  | .general | .fifoLoopback | .mirrorLoopback => s.peer

/-- The FIFO loopback's queue after a pin write. -/
def State.fifoAfterWrite (p : Pin) (l : Level) (s : State) : List Level :=
  match s.cfg.line with
  | .fifoLoopback => Sys2Proof.Machine.fifoAfterWrite s.clkOut s.datOut s.datOe p l s.fifo
  | .general | .referencePeer | .mirrorLoopback => s.fifo

/-- `PinWrite(p, l)` (R13): the pin register takes the level, writing `DAT` also drives the line, the event is appended whether or not the
level changed. -/
def State.pinWrite (p : Pin) (l : Level) (s : State) : State :=
  { s with
    clkOut := if p = .clk then l else s.clkOut
    ceOut := if p = .ce then l else s.ceOut
    datOut := if p = .dat then l else s.datOut
    datOe := if p = .dat then true else s.datOe
    peer := s.peerAfterWrite p l
    fifo := s.fifoAfterWrite p l
    log := .w p l :: s.log }

/-- The level of a draw: the next listed answer, or the free value (R14, D15; log 3). -/
def State.drawLevel (s : State) : Level :=
  match s.answers with
  | l :: _ => l
  | [] => Config.drawLevel s.draws

/-- What the environment of the data line answers to `PinRead(DAT)`: none where the answer is a draw (R14, R46, R49). -/
def State.fixtureLevel (s : State) : Option Level :=
  match s.cfg.line with
  | .general => none
  | .referencePeer => if s.peer.outside then none else s.peer.answer
  | .fifoLoopback => s.fifo.head?
  | .mirrorLoopback => some s.datOut

/-- The level `PinRead(DAT)` returns (R14). -/
def State.readLevel (s : State) : Level := s.fixtureLevel.getD s.drawLevel

/-- The peer after `PinRead(DAT)`. -/
def State.peerAfterRead (s : State) : Peer :=
  match s.cfg.line with
  | .referencePeer => if s.peer.outside then s.peer else s.peer.afterRead
  | .general | .fifoLoopback | .mirrorLoopback => s.peer

/-- `PinRead(DAT)` (R14): the engine releases the data line and the event is appended; the level is `readLevel`. -/
def State.pinRead (s : State) : State :=
  { s with
    datOe := false
    peer := s.peerAfterRead
    answers := if s.fixtureLevel.isSome then s.answers else s.answers.tail
    draws := if s.fixtureLevel.isNone && s.answers.isEmpty then s.draws + 1 else s.draws
    log := .r s.readLevel :: s.log }

/-! ### The pin operations of a command -/

/-- Where the byte that WRBYTE sends comes from. -/
inductive ByteSrc where
  /-- A byte known when the command is accepted. -/
  | lit (b : Byte)
  /-- `LATCH & 0x7F` (R120). -/
  | latchCleared
  /-- `LATCH | 0x80` (R121). -/
  | latchSet
  deriving DecidableEq, Repr

/-- One pin operation of a command, with the bookkeeping of the working registers that goes with it (R16, R80, R81). -/
inductive PinOp where
  /-- `PinWrite(CE, l)`. -/
  | ce (l : Level)
  /-- `PinWrite(CE, 0)` at the end of the read frame whose byte `LATCH` keeps (R120, R121). -/
  | ceLatch
  /-- `PinWrite(CLK, 1)`. -/
  | clkHigh
  /-- `PinWrite(CLK, 0)`; the bit is over. -/
  | clkLow
  /-- `PinWrite(DAT, SHREG[k])`, `SHREG` loaded from `src` at `k` = 0 (R80). -/
  | drive (src : ByteSrc) (k : Nat)
  /-- `PinRead(DAT)` into bit `k` of `SHREG`, cleared at `k` = 0 (R81). -/
  | sample (k : Nat)
  deriving DecidableEq, Repr

/-- The byte a source stands for. -/
def ByteSrc.value (s : State) : ByteSrc → Byte
  | .lit b => b
  | .latchCleared => clearHalt s.latch
  | .latchSet => setHalt s.latch

/-- `SHREG` when bit `k` is about to be sent (R80). -/
def State.sendReg (src : ByteSrc) (k : Nat) (s : State) : Byte := if k = 0 then src.value s else s.shreg

/-- `SHREG` when bit `k` is about to be received (R81). -/
def State.receiveReg (k : Nat) (s : State) : Byte := if k = 0 then 0 else s.shreg

/-- A pin operation that succeeds; `SEQ` advances by one (R18). -/
def PinOp.perform (op : PinOp) (s : State) : State :=
  match op with
  | .ce l => { s.pinWrite .ce l with seq := s.seq + 1 }
  | .ceLatch => { s.pinWrite .ce false with seq := s.seq + 1, latch := s.shreg }
  | .clkHigh => { s.pinWrite .clk true with seq := s.seq + 1 }
  | .clkLow => { s.pinWrite .clk false with seq := s.seq + 1, bitcnt := s.bitcnt + 1 }
  | .drive src k =>
    { s.pinWrite .dat ((s.sendReg src k).getLsbD k) with
      seq := s.seq + 1, shreg := s.sendReg src k, bitcnt := BitVec.ofNat 4 k }
  | .sample k =>
    { s.pinRead with
      seq := s.seq + 1, shreg := s.receiveReg k ||| levelAt s.readLevel k, bitcnt := BitVec.ofNat 4 k }

/-- Whether the next pin operation fails (R142): never unless `PIN_IO_CAN_FAIL`; then as the environment's next verdict says (log 9). -/
def State.nextFails (s : State) : Bool := s.cfg.pinIoCanFail && s.ioFails.head?.getD false

/-- The verdict of a pin operation is taken from the environment. -/
def State.takeVerdict (s : State) : State :=
  { s with ioFails := if s.cfg.pinIoCanFail then s.ioFails.tail else s.ioFails }

/-- How a run of pin operations ended. -/
inductive Ran where
  /-- All were performed. -/
  | completed (s : State)
  /-- One failed: the state at that moment, without it. -/
  | failed (s : State)

/-- The pin operations one after another, up to the first that fails (R43, R142). -/
def runOps : List PinOp → State → Ran
  | [], s => .completed s
  | op :: ops, s =>
    if s.nextFails then .failed s.takeVerdict else runOps ops (op.perform s.takeVerdict)

/-- `raise IoError` (R142): chip-select is driven low once as cleanup, a failure of that write being ignored, and the command ends with
`STATUS` 3 and `RESULT` 0. -/
def ioError (s : State) : State :=
  (if s.nextFails then s.takeVerdict else s.takeVerdict.pinWrite .ce false).endWith .ioError 0

/-! ### A command -/

/-- What a command does after its last pin event. -/
inductive Ending where
  /-- `RESULT <- 0`, "a confirmation of effect" (R17). -/
  | confirm
  /-- `RESULT <- zext_16(SHREG)`, the byte read (R81, R90, R122). -/
  | byteRead
  /-- `RESULT <- zext_16(post(B2D(r)))` (R101). -/
  | fieldRead (f : Field)
  /-- The result of D2B (R70). -/
  | toBcd (v : Nat)
  /-- The result of B2D (R71). -/
  | fromBcd (b : Byte)
  deriving DecidableEq, Repr

/-- The end of a command whose pin events have all happened (R17, R140). -/
def finish (e : Ending) (s : State) : State :=
  match e with
  | .confirm => s.endWith .done 0
  | .byteRead => s.endWith .done (zext16 s.shreg)
  | .fieldRead f => s.endWith .done (BitVec.ofNat 16 (f.getValue s.shreg))
  | .toBcd v =>
    if v ≤ 99 ∨ s.cfg.d2bWraps = true then s.endWith .done (zext16 (d2b v)) else s.endWith .refused 0
  | .fromBcd b => s.endWith .done (BitVec.ofNat 16 (b2d b))

/-- A command: its pin operations, fixed by its opcode and operands (R131), and its end. -/
structure Plan where
  ops : List PinOp
  ending : Ending
  deriving DecidableEq, Repr

/-- The rest of a command from event `SEQ` on: to its end, or to the io-error that abandons it. -/
def runPlan (p : Plan) (s : State) : State :=
  match runOps (p.ops.drop s.seq) s with
  | .completed t => finish p.ending t
  | .failed t => ioError t

/-- A command is accepted: `BUSY` = 1, `SEQ` = 0 (R17, R18). -/
def State.accept (i : Instr) (s : State) : State := { s with active := some i, seq := 0 }

/-- A command is issued: accepted while `BUSY` = 0 and carried out to its end; while `BUSY` = 1 the port accepts nothing (R17, R146). -/
def issue (i : Instr) (p : Plan) (s : State) : Host.Outcome State Fault Refusal :=
  if s.busy then .fault .portBusy else .next (runPlan p (s.accept i))

/-- One pin event of a command in progress; with the last event the command ends (R17, R18, R176). A command without pin events ends at
once. -/
def eventOf (p : Plan) (s : State) : State :=
  match p.ops.drop s.seq with
  | [] => finish p.ending s
  | op :: rest =>
    if s.nextFails then ioError s.takeVerdict
    else if rest.isEmpty then finish p.ending (op.perform s.takeVerdict)
    else op.perform s.takeVerdict

/-! ### Construction -/

/-- The bindings that a construction may not touch: those of the other instances, and, while a command of the engine of this state is in
progress, that engine's own (R153, R164). An idle engine is taken to give up its pins (DESIGN CHOICE where the new ones are not the same
three, log 26). -/
def State.heldPins (others : List Pins) (s : State) : List Pins := if s.busy then s.cfg.pins :: others else others

/-- `create(clockPin, dataPin, chipSelectPin)` (R160): the engine is bound to three distinct pins that no instance holds, else refused
(R11, R153, R164, D19); the clock, then chip-select are driven low; the data line is released. The environment is as it was (R47, R161);
the instance inherits nothing (R164), so its records begin with the two events of reset (log 25). From a state whose engine has a command
in progress, on pins that are not its own, the model follows the new instance alone (DESIGN CHOICE, log 26). -/
def create (others : List Pins) (clockPin dataPin chipSelectPin : Nat) (s : State) : Host.Outcome State Fault Refusal :=
  if h : (clockPin != dataPin && clockPin != chipSelectPin && dataPin != chipSelectPin) = true then
    let pins : Pins := { clk := clockPin, dat := dataPin, ce := chipSelectPin, distinct := h }
    if (s.heldPins others).any pins.overlap then .refused .pinsShared
    else
      let t := ({ s with log := [] }.pinWrite .clk false).pinWrite .ce false
      .next { t with
        cfg := { s.cfg with pins := pins }
        datOut := false, datOe := false
        active := none, seq := 0, shreg := 0, bitcnt := 0, latch := 0
        result := 0, status := .done, reports := [] }
  else .refused .pinsNotDistinct

end Sys2Proof.Machine
end

