-- ==== Sys2Proof/Machine/Bytes.lean ====
section
/-!
DEFINITION. The byte transport, WRBYTE and RDBYTE (spec/41_byte_transport.md).
-/
namespace Sys2Proof.Machine

/-- The bit positions of a byte, in the order of the wire: ascending (R39, R80, R81). -/
def bitOrder : List Nat := [0, 1, 2, 3, 4, 5, 6, 7]

/-- A bit is sent: the data line is driven, then one clock pulse (R80, R51). -/
def sendBit (src : ByteSrc) (k : Nat) : List PinOp := [.drive src k, .clkHigh, .clkLow]

/-- A bit is received: the data line is sampled, then one clock pulse (R81, R51). -/
def receiveBit (k : Nat) : List PinOp := [.sample k, .clkHigh, .clkLow]

/-- WRBYTE as a part of any command (R80). -/
def sendByte (src : ByteSrc) : List PinOp := bitOrder.flatMap (sendBit src)

/-- RDBYTE as a part of any command (R81). -/
def receiveByte : List PinOp := bitOrder.flatMap receiveBit

/-- WRBYTE of the low byte of `v0` (R80). -/
def planWrbyte (v : Nat) : Plan := { ops := sendByte (.lit (trunc8 v)), ending := .confirm }

/-- WRBYTE (R80). -/
def execWrbyte (v : Nat) (s : State) : Host.Outcome State Fault Refusal := issue (.wrbyte v) (planWrbyte v) s

/-- RDBYTE (R81). -/
def planRdbyte : Plan := { ops := receiveByte, ending := .byteRead }

/-- RDBYTE (R81). -/
def execRdbyte (s : State) : Host.Outcome State Fault Refusal := issue .rdbyte planRdbyte s

end Sys2Proof.Machine
end

