-- ==== Sys2Proof/Machine/Registers.lean ====
section
/-!
DEFINITION. The register framing layer, RDREG, WRREG and PWRREG (spec/42_register_transport.md). No address is checked (R93).
-/
namespace Sys2Proof.Machine

/-- A read frame (R90, R53): `MemRead(a, 1)`. -/
def readOps (a : Byte) : List PinOp := [.ce true] ++ sendByte (.lit a) ++ receiveByte ++ [.ce false]

/-- The read frame of START and PAUSE, whose byte `LATCH` keeps (R120, R121). -/
def readLatchOps (a : Byte) : List PinOp := [.ce true] ++ sendByte (.lit a) ++ receiveByte ++ [.ceLatch]

/-- A write frame (R91, R52): `MemWrite(a, 1, v)`. -/
def writeOps (a : Byte) (src : ByteSrc) : List PinOp := [.ce true] ++ sendByte (.lit a) ++ sendByte src ++ [.ce false]

/-- The write-protect-disable frame (R91, R92). -/
def disableOps : List PinOp := writeOps addrWp (.lit 0)

/-- The protected write, three frames (R92): disable, write, disable; protection is not restored. -/
def protectedOps (a : Byte) (src : ByteSrc) : List PinOp := disableOps ++ writeOps a src ++ disableOps

/-- RDREG `a` (R90). -/
def planRdreg (a : Byte) : Plan := { ops := readOps a, ending := .byteRead }

/-- RDREG (R90). -/
def execRdreg (a : Byte) (s : State) : Host.Outcome State Fault Refusal := issue (.rdreg a) (planRdreg a) s

/-- WRREG `a`, `b` (R91). -/
def planWrreg (a : Byte) (v : Nat) : Plan := { ops := writeOps a (.lit (trunc8 v)), ending := .confirm }

/-- WRREG (R91). -/
def execWrreg (a : Byte) (v : Nat) (s : State) : Host.Outcome State Fault Refusal := issue (.wrreg a v) (planWrreg a v) s

/-- PWRREG `a`, `b` (R92). -/
def planPwrreg (a : Byte) (v : Nat) : Plan := { ops := protectedOps a (.lit (trunc8 v)), ending := .confirm }

/-- PWRREG (R92). -/
def execPwrreg (a : Byte) (v : Nat) (s : State) : Host.Outcome State Fault Refusal := issue (.pwrreg a v) (planPwrreg a v) s

end Sys2Proof.Machine
end

