-- ==== Sys2Proof/Machine/Setters.lean ====
section
/-!
DEFINITION. The seven setters (spec/43_field_commands.md R110 to R117): the operand wrapped by the field's modulus, BCD-encoded, written through the
protected write.
-/
namespace Sys2Proof.Machine

/-- The pin operations of a setter (R110). -/
def setOps (f : Field) (v : Nat) : List PinOp := protectedOps f.writeAddr (.lit (f.setByte v))

/-- The common form of the setters (R110). -/
def planSet (f : Field) (v : Nat) : Plan := { ops := setOps f v, ending := .confirm }

/-- SETYEAR `v` (R111). -/
def planSetyear (v : Nat) : Plan := planSet .year v

/-- SETYEAR (R111). -/
def execSetyear (v : Nat) (s : State) : Host.Outcome State Fault Refusal := issue (.setyear v) (planSetyear v) s

/-- SETMONTH `v` (R112). -/
def planSetmonth (v : Nat) : Plan := planSet .month v

/-- SETMONTH (R112). -/
def execSetmonth (v : Nat) (s : State) : Host.Outcome State Fault Refusal := issue (.setmonth v) (planSetmonth v) s

/-- SETDAY `v` (R113). -/
def planSetday (v : Nat) : Plan := planSet .day v

/-- SETDAY (R113). -/
def execSetday (v : Nat) (s : State) : Host.Outcome State Fault Refusal := issue (.setday v) (planSetday v) s

/-- SETHOUR `v` (R114). -/
def planSethour (v : Nat) : Plan := planSet .hour v

/-- SETHOUR (R114). -/
def execSethour (v : Nat) (s : State) : Host.Outcome State Fault Refusal := issue (.sethour v) (planSethour v) s

/-- SETMIN `v` (R115). -/
def planSetmin (v : Nat) : Plan := planSet .minute v

/-- SETMIN (R115). -/
def execSetmin (v : Nat) (s : State) : Host.Outcome State Fault Refusal := issue (.setmin v) (planSetmin v) s

/-- SETSEC `v` (R116). -/
def planSetsec (v : Nat) : Plan := planSet .second v

/-- SETSEC (R116). -/
def execSetsec (v : Nat) (s : State) : Host.Outcome State Fault Refusal := issue (.setsec v) (planSetsec v) s

/-- SETWDAY `v` (R117). -/
def planSetwday (v : Nat) : Plan := planSet .weekday v

/-- SETWDAY (R117). -/
def execSetwday (v : Nat) (s : State) : Host.Outcome State Fault Refusal := issue (.setwday v) (planSetwday v) s

end Sys2Proof.Machine
end

