-- ==== Sys2Proof/Machine/Bulk.lean ====
section
/-!
DEFINITION. The bulk set SETDATETIME (spec/43_field_commands.md R124): the seven setters in the order year, month, day, weekday, hour, minute, second.
-/
namespace Sys2Proof.Machine

/-- SETDATETIME `y`, `mo`, `d`, `w`, `h`, `mi`, `s` (R124). -/
def planSetdatetime (y mo d w h mi sec : Nat) : Plan :=
  { ops := setOps .year y ++ setOps .month mo ++ setOps .day d ++ setOps .weekday w ++ setOps .hour h ++ setOps .minute mi ++
      setOps .second sec
    ending := .confirm }

/-- SETDATETIME (R124). -/
def execSetdatetime (y mo d w h mi sec : Nat) (s : State) : Host.Outcome State Fault Refusal :=
  issue (.setdatetime y mo d w h mi sec) (planSetdatetime y mo d w h mi sec) s

end Sys2Proof.Machine
end

