-- ==== Sys2Proof/Machine/Codec.lean ====
section
/-!
DEFINITION. The BCD codec as commands, D2B and B2D (spec/40_bcd_codec.md): combinational, without pin events (R74).
-/
namespace Sys2Proof.Machine

/-- D2B `v` (R70): refused above 99 (or, as a parameter, the truncated formula). -/
def planD2b (v : Nat) : Plan := { ops := [], ending := .toBcd v }

/-- D2B (R70). -/
def execD2b (v : Nat) (s : State) : Host.Outcome State Fault Refusal := issue (.d2b v) (planD2b v) s

/-- B2D of the low byte of `v0` (R71). -/
def planB2d (v : Nat) : Plan := { ops := [], ending := .fromBcd (trunc8 v) }

/-- B2D (R71). -/
def execB2d (v : Nat) (s : State) : Host.Outcome State Fault Refusal := issue (.b2d v) (planB2d v) s

end Sys2Proof.Machine
end

