-- ==== Sys2Proof/Machine/Getters.lean ====
section
/-!
DEFINITION. The seven getters (spec/43_field_commands.md R101 to R108): one read frame, the byte decoded and post-processed.
-/
namespace Sys2Proof.Machine

/-- The common form of the getters (R101). -/
def planGet (f : Field) : Plan := { ops := readOps (readAddr f.writeAddr), ending := .fieldRead f }

/-- GETYEAR (R102). -/
def planGetyear : Plan := planGet .year

/-- GETYEAR (R102). -/
def execGetyear (s : State) : Host.Outcome State Fault Refusal := issue .getyear planGetyear s

/-- GETMONTH (R103). -/
def planGetmonth : Plan := planGet .month

/-- GETMONTH (R103). -/
def execGetmonth (s : State) : Host.Outcome State Fault Refusal := issue .getmonth planGetmonth s

/-- GETDAY (R104). -/
def planGetday : Plan := planGet .day

/-- GETDAY (R104). -/
def execGetday (s : State) : Host.Outcome State Fault Refusal := issue .getday planGetday s

/-- GETHOUR (R105). -/
def planGethour : Plan := planGet .hour

/-- GETHOUR (R105). -/
def execGethour (s : State) : Host.Outcome State Fault Refusal := issue .gethour planGethour s

/-- GETMIN (R106). -/
def planGetmin : Plan := planGet .minute

/-- GETMIN (R106). -/
def execGetmin (s : State) : Host.Outcome State Fault Refusal := issue .getmin planGetmin s

/-- GETSEC (R107). -/
def planGetsec : Plan := planGet .second

/-- GETSEC (R107). -/
def execGetsec (s : State) : Host.Outcome State Fault Refusal := issue .getsec planGetsec s

/-- GETWDAY (R108). -/
def planGetwday : Plan := planGet .weekday

/-- GETWDAY (R108). -/
def execGetwday (s : State) : Host.Outcome State Fault Refusal := issue .getwday planGetwday s

end Sys2Proof.Machine
end

