-- ==== Sys2Proof/Machine/Ram.lean ====
section
/-!
DEFINITION. The RAM commands RDRAM and WRRAM (spec/43_field_commands.md R122, R123): slot `i mod 31`, the byte as it is.
-/
namespace Sys2Proof.Machine

/-- RDRAM `i` (R122). -/
def planRdram (i : Nat) : Plan := { ops := readOps (ramReadAddr i), ending := .byteRead }

/-- RDRAM (R122). -/
def execRdram (i : Nat) (s : State) : Host.Outcome State Fault Refusal := issue (.rdram i) (planRdram i) s

/-- WRRAM `i`, `b` (R123). -/
def planWrram (i v : Nat) : Plan := { ops := protectedOps (ramWriteAddr i) (.lit (trunc8 v)), ending := .confirm }

/-- WRRAM (R123). -/
def execWrram (i v : Nat) (s : State) : Host.Outcome State Fault Refusal := issue (.wrram i v) (planWrram i v) s

end Sys2Proof.Machine
end

