-- ==== Sys2Proof/Machine/StartPause.lean ====
section
/-!
DEFINITION. START and PAUSE (spec/43_field_commands.md R120, R121; spec/90_conflicts.md C1): the raw seconds byte is read and written back through the
protected write with bit 7 cleared or set.
-/
namespace Sys2Proof.Machine

/-- START (R120). -/
def planStart : Plan :=
  { ops := readLatchOps (readAddr addrSeconds) ++ protectedOps addrSeconds .latchCleared, ending := .confirm }

/-- START (R120). -/
def execStart (s : State) : Host.Outcome State Fault Refusal := issue .start planStart s

/-- PAUSE (R121). -/
def planPause : Plan :=
  { ops := readLatchOps (readAddr addrSeconds) ++ protectedOps addrSeconds .latchSet, ending := .confirm }

/-- PAUSE (R121). -/
def execPause (s : State) : Host.Outcome State Fault Refusal := issue .pause planPause s

end Sys2Proof.Machine
end

