-- ==== Sys2Proof/Machine/Dispatch.lean ====
section
/-!
DEFINITION. One meaning for each command (spec/30_encoding.md R62).
-/
namespace Sys2Proof.Machine

/-- The effect of one command on an idle engine, carried out to its end (spec/10_state.md R17). -/
def exec (i : Instr) (s : State) : Host.Outcome State Fault Refusal :=
  match i with
  | .d2b v => Sys2Proof.Machine.execD2b v s
  | .b2d v => Sys2Proof.Machine.execB2d v s
  | .wrbyte v => Sys2Proof.Machine.execWrbyte v s
  | .rdbyte => Sys2Proof.Machine.execRdbyte s
  | .rdreg a => Sys2Proof.Machine.execRdreg a s
  | .wrreg a v => Sys2Proof.Machine.execWrreg a v s
  | .pwrreg a v => Sys2Proof.Machine.execPwrreg a v s
  | .setyear v => Sys2Proof.Machine.execSetyear v s
  | .setmonth v => Sys2Proof.Machine.execSetmonth v s
  | .setday v => Sys2Proof.Machine.execSetday v s
  | .sethour v => Sys2Proof.Machine.execSethour v s
  | .setmin v => Sys2Proof.Machine.execSetmin v s
  | .setsec v => Sys2Proof.Machine.execSetsec v s
  | .setwday v => Sys2Proof.Machine.execSetwday v s
  | .getyear => Sys2Proof.Machine.execGetyear s
  | .getmonth => Sys2Proof.Machine.execGetmonth s
  | .getday => Sys2Proof.Machine.execGetday s
  | .gethour => Sys2Proof.Machine.execGethour s
  | .getmin => Sys2Proof.Machine.execGetmin s
  | .getsec => Sys2Proof.Machine.execGetsec s
  | .getwday => Sys2Proof.Machine.execGetwday s
  | .start => Sys2Proof.Machine.execStart s
  | .pause => Sys2Proof.Machine.execPause s
  | .rdram k => Sys2Proof.Machine.execRdram k s
  | .wrram k v => Sys2Proof.Machine.execWrram k v s
  | .setdatetime y mo d w h mi sec => Sys2Proof.Machine.execSetdatetime y mo d w h mi sec s

end Sys2Proof.Machine
end

