-- ==== Sys2Proof/Machine/Plans.lean ====
section
/-!
DEFINITION. The pin operations and the end of each command, as one function of the command (spec/30_encoding.md R64, R67): what is left of a command
in progress is found from it and `SEQ` (spec/10_state.md R18).
-/
namespace Sys2Proof.Machine

/-- The plan of a command. -/
def planOf : Instr → Plan
  | .d2b v => planD2b v
  | .b2d v => planB2d v
  | .wrbyte v => planWrbyte v
  | .rdbyte => planRdbyte
  | .rdreg a => planRdreg a
  | .wrreg a v => planWrreg a v
  | .pwrreg a v => planPwrreg a v
  | .setyear v => planSetyear v
  | .setmonth v => planSetmonth v
  | .setday v => planSetday v
  | .sethour v => planSethour v
  | .setmin v => planSetmin v
  | .setsec v => planSetsec v
  | .setwday v => planSetwday v
  | .getyear => planGetyear
  | .getmonth => planGetmonth
  | .getday => planGetday
  | .gethour => planGethour
  | .getmin => planGetmin
  | .getsec => planGetsec
  | .getwday => planGetwday
  | .start => planStart
  | .pause => planPause
  | .rdram i => planRdram i
  | .wrram i v => planWrram i v
  | .setdatetime y mo d w h mi sec => planSetdatetime y mo d w h mi sec

/-- A command in progress goes on to its end (R18, R147). -/
def resume (i : Instr) (s : State) : State := runPlan (planOf i) s

/-- One pin event of the command in progress; an idle engine does nothing (R176, R162). -/
def eventStep (s : State) : State :=
  match s.active with
  | none => s
  | some i => eventOf (planOf i) s

end Sys2Proof.Machine
end

