-- ==== Sys2Proof/Machine/Step.lean ====
section
/-!
DEFINITION. One step of the machine (log 1): a command in progress goes on to its end; an idle engine takes the next descriptor of the host and carries
the command out; with no descriptor issued it stays idle (spec/10_state.md R17, R18, spec/70_reset_and_hazards.md R162).
-/
namespace Sys2Proof.Machine

/-- The step. -/
def step (s : State) : Host.Outcome State Fault Refusal :=
  match s.active, s.cmds with
  | some i, _ => .next (resume i s)
  | none, [] => .next s
  | none, d :: ds =>
    match decode s.cfg.publicOnly d with
    | .accepted i => exec i { s with cmds := ds }
    | .illegal _ => .next (State.takeIllegal { s with cmds := ds })

/-- The state in which the next step accepts and runs the descriptor `w` (bit 0 the least significant): it stands at the command port of
an idle engine (log 2). -/
def State.withFetchWord (s : State) (nbits w : Nat) : State :=
  { s with active := none, cmds := BitVec.ofNat 128 (w % 2 ^ nbits) :: s.cmds.tail }

end Sys2Proof.Machine
end

