-- ==== Sys2Proof/WellFormed.lean ====
section
/-!
DEFINITION. Which commands a descriptor can carry: an integer or byte operand fits its 16-bit field `v0` to `v6`, a RAM index fits the
8-bit field `a` (spec/30_encoding.md R60).
-/
namespace Sys2Proof

/-- A value that fits an operand field `v0` to `v6` (R60). -/
def fitsValue (v : Nat) : Bool := decide (v < 65536)

/-- A RAM slot index that fits the field `a` (R60, R122). -/
def fitsIndex (i : Nat) : Bool := decide (i < 256)

/-- A command that a descriptor can carry. -/
def Instr.wf : Instr → Bool
  | .d2b v => fitsValue v
  | .b2d v => fitsValue v
  | .wrbyte v => fitsValue v
  | .rdbyte => true
  | .rdreg _ => true
  | .wrreg _ v => fitsValue v
  | .pwrreg _ v => fitsValue v
  | .setyear v => fitsValue v
  | .setmonth v => fitsValue v
  | .setday v => fitsValue v
  | .sethour v => fitsValue v
  | .setmin v => fitsValue v
  | .setsec v => fitsValue v
  | .setwday v => fitsValue v
  | .getyear => true
  | .getmonth => true
  | .getday => true
  | .gethour => true
  | .getmin => true
  | .getsec => true
  | .getwday => true
  | .start => true
  | .pause => true
  | .rdram i => fitsIndex i
  | .wrram i v => fitsIndex i && fitsValue v
  | .setdatetime y mo d w h mi s =>
    fitsValue y && fitsValue mo && fitsValue d && fitsValue w && fitsValue h && fitsValue mi && fitsValue s

end Sys2Proof
end

