-- ==== Sys2Proof/Safety.lean ====
section
/-!
DEFINITION. The words in which claims are stated: the traces of the spec (spec/00_scope.md R7, spec/30_encoding.md R50 to R53, R64), when
an engine is ready, how a command ends, and the invariants. The traces are written from the spec's own layouts, not from the machine.
-/
namespace Sys2Proof.Machine

/-! ### Traces (R7) -/

/-- `P`, a clock pulse: `W(CLK,1) W(CLK,0)` (R51). -/
def pulseEvents : List PinEvent := [.w .clk true, .w .clk false]

/-- `TX(b)`: the 24 events of WRBYTE `b` (R80). -/
def txEvents (b : Byte) : List PinEvent :=
  [0, 1, 2, 3, 4, 5, 6, 7].flatMap fun k => .w .dat (b.getLsbD k) :: pulseEvents

/-- `RX=r`: the 24 events of an RDBYTE that assembles `r` (R81). -/
def rxEvents (r : Byte) : List PinEvent :=
  [0, 1, 2, 3, 4, 5, 6, 7].flatMap fun k => .r (r.getLsbD k) :: pulseEvents

/-- Event `i` is a data event and the next two are its clock pulse (R51). -/
def bitAt (evs : List PinEvent) (i : Nat) (data : PinEvent) : Prop :=
  (evs.drop i).take 3 = [data, .w .clk true, .w .clk false]

/-- One frame (R50): a write frame with its address and data byte (R52), or a read frame with its address and the byte it returns (R53). -/
inductive Frame where
  | write (a v : Byte)
  | read (a r : Byte)
  deriving DecidableEq, Repr

/-- The 50 events of a frame (R52, R53). -/
def Frame.events : Frame → List PinEvent
  | .write a v => .w .ce true :: (txEvents a ++ txEvents v ++ [.w .ce false])
  | .read a r => .w .ce true :: (txEvents a ++ rxEvents r ++ [.w .ce false])

/-- The events of frames one after another. -/
def framesEvents (fs : List Frame) : List PinEvent := fs.flatMap Frame.events

/-- The three frames of a protected write (R92): disable, write, disable. -/
def protectedFrames (a v : Byte) : List Frame := [.write 0x8E 0x00, .write a v, .write 0x8E 0x00]

/-- The 21 frames of SETDATETIME (R124), in its fixed order. -/
def dateTimeFrames (y mo d w h mi s : Nat) : List Frame :=
  protectedFrames 0x8C (d2b (y % 100)) ++ protectedFrames 0x88 (d2b (mo % 13)) ++ protectedFrames 0x86 (d2b (d % 32)) ++
  protectedFrames 0x8A (d2b (w % 8)) ++ protectedFrames 0x84 (d2b (h % 24)) ++ protectedFrames 0x82 (d2b (mi % 60)) ++
  protectedFrames 0x80 (d2b (s % 60))

/-- The number of pin events of a command (the table of R64). -/
def eventCount : Instr → Nat
  | .d2b _ | .b2d _ => 0
  | .wrbyte _ | .rdbyte => 24
  | .rdreg _ | .rdram _ => 50
  | .getyear | .getmonth | .getday | .gethour | .getmin | .getsec | .getwday => 50
  | .wrreg _ _ => 50
  | .pwrreg _ _ | .wrram _ _ => 150
  | .setyear _ | .setmonth _ | .setday _ | .sethour _ | .setmin _ | .setsec _ | .setwday _ => 150
  | .start | .pause => 200
  | .setdatetime _ _ _ _ _ _ _ => 1050

/-- The number of `PinRead` events of a command (the table of R64). -/
def readCount : Instr → Nat
  | .rdbyte | .rdreg _ | .rdram _ => 8
  | .getyear | .getmonth | .getday | .gethour | .getmin | .getsec | .getwday => 8
  | .start | .pause => 8
  | .d2b _ | .b2d _ | .wrbyte _ | .wrreg _ _ | .pwrreg _ _ | .wrram _ _ => 0
  | .setyear _ | .setmonth _ | .setday _ | .sethour _ | .setmin _ | .setsec _ | .setwday _ => 0
  | .setdatetime _ _ _ _ _ _ _ => 0

/-- The number of clock pulses of a command (the table of R64). -/
def pulseCount : Instr → Nat
  | .d2b _ | .b2d _ => 0
  | .wrbyte _ | .rdbyte => 8
  | .rdreg _ | .rdram _ | .wrreg _ _ => 16
  | .getyear | .getmonth | .getday | .gethour | .getmin | .getsec | .getwday => 16
  | .pwrreg _ _ | .wrram _ _ => 48
  | .setyear _ | .setmonth _ | .setday _ | .sethour _ | .setmin _ | .setsec _ | .setwday _ => 48
  | .start | .pause => 64
  | .setdatetime _ _ _ _ _ _ _ => 336

/-- The number of frames of a command (the table of R64). -/
def frameCount : Instr → Nat
  | .d2b _ | .b2d _ | .wrbyte _ | .rdbyte => 0
  | .rdreg _ | .rdram _ | .wrreg _ _ => 1
  | .getyear | .getmonth | .getday | .gethour | .getmin | .getsec | .getwday => 1
  | .pwrreg _ _ | .wrram _ _ => 3
  | .setyear _ | .setmonth _ | .setday _ | .sethour _ | .setmin _ | .setsec _ | .setwday _ => 3
  | .start | .pause => 4
  | .setdatetime _ _ _ _ _ _ _ => 21

/-- Whether an event is a `PinRead`. -/
def PinEvent.isRead : PinEvent → Bool
  | .r _ => true
  | .w _ _ => false

/-- An event without the level of the data line: what the opcode alone decides (R131). -/
def PinEvent.shape : PinEvent → PinEvent
  | .w .dat _ => .w .dat false
  | .w .clk l => .w .clk l
  | .w .ce l => .w .ce l
  | .r _ => .r false

/-- The address byte of a frame. -/
def Frame.addr : Frame → Byte
  | .write a _ => a
  | .read a _ => a

/-- Whether a frame is a read frame. -/
def Frame.isRead : Frame → Bool
  | .write _ _ => false
  | .read _ _ => true

/-- The 77 wire addresses that field commands produce (R38, R69). -/
def fieldAddresses : List Nat :=
  [0x80, 0x82, 0x84, 0x86, 0x88, 0x8A, 0x8C, 0x8E] ++ [0x81, 0x83, 0x85, 0x87, 0x89, 0x8B, 0x8D] ++
    (List.range 62).map (0xC0 + ·)

/-- The setter of a field (R100, R111 to R117). -/
def Field.setCmd : Field → Nat → Instr
  | .year, v => .setyear v
  | .month, v => .setmonth v
  | .day, v => .setday v
  | .hour, v => .sethour v
  | .minute, v => .setmin v
  | .second, v => .setsec v
  | .weekday, v => .setwday v

/-- The getter of a field (R100, R102 to R108). -/
def Field.getCmd : Field → Instr
  | .year => .getyear
  | .month => .getmonth
  | .day => .getday
  | .hour => .gethour
  | .minute => .getmin
  | .second => .getsec
  | .weekday => .getwday

/-! ### When an engine is ready, and how a command ends -/

/-- The engine is idle and pin operations cannot fail (the default of R142). -/
structure Ready (s : State) : Prop where
  idle : s.active = none
  reliable : s.cfg.pinIoCanFail = false

/-- Ready, with the lines at rest (R22). -/
structure AtRest (s : State) : Prop extends Ready s where
  clk : s.clkOut = false
  ce : s.ceOut = false

/-- At rest on the reference peer, which has refused no frame and is in none (R44). -/
structure OnPeer (s : State) : Prop extends AtRest s where
  line : s.cfg.line = .referencePeer
  inside : s.peer.outside = false
  noFrame : s.peer.inframe = false

/-- On the reference peer of the test vectors, in which no time passes (R48). -/
structure OnStaticPeer (s : State) : Prop extends OnPeer s where
  static : s.peer.ticks = []

/-- What every command that ends done leaves alone or sets (R17, R140): it appends exactly `evs` to the trace, and returns `r`. -/
structure EndsDone (s t : State) (evs : List PinEvent) (r : Half) : Prop where
  idle : t.active = none
  status : t.status = .done
  result : t.result = r
  reports : t.reports = { status := .done, result := r } :: s.reports
  trace : t.trace = s.trace ++ evs
  cfg : t.cfg = s.cfg
  cmds : t.cmds = s.cmds
  ioFails : t.ioFails = s.ioFails

/-- The engine after a command whose last byte, `v`, was sent in a frame (R22, R91): `CE` and `CLK` low, the data line driven at bit 7 of `v`. -/
structure AfterWrite (v : Byte) (t : State) : Prop where
  clk : t.clkOut = false
  ce : t.ceOut = false
  dat : t.datOut = v.getLsbD 7
  oe : t.datOe = true
  shreg : t.shreg = v
  bitcnt : t.bitcnt = 8

/-- The engine after a read frame at `a` that returned `r` (R22, R90): `CE` and `CLK` low, the data line released. -/
structure AfterRead (a r : Byte) (t : State) : Prop where
  clk : t.clkOut = false
  ce : t.ceOut = false
  dat : t.datOut = a.getLsbD 7
  oe : t.datOe = false
  shreg : t.shreg = r
  bitcnt : t.bitcnt = 8

/-- No draw was made. -/
structure NoDraw (s t : State) : Prop where
  answers : t.answers = s.answers
  draws : t.draws = s.draws

/-- Eight draws were made (R14): the listed answers first, then the free value. -/
structure EightDraws (s t : State) : Prop where
  answers : t.answers = s.answers.drop 8
  draws : t.draws = s.draws + (8 - s.answers.length)

/-- Only the fixture on the line can have changed: the reference peer stands still on any other line, and so does the loopback's queue. -/
structure OtherFixturesKept (s t : State) : Prop where
  peer : s.cfg.line ≠ .referencePeer → t.peer = s.peer
  fifo : s.cfg.line ≠ .fifoLoopback → t.fifo = s.fifo

/-- Nothing of the environment has changed: its registers, its queue and its free inputs. -/
structure EnvKept (s t : State) : Prop where
  peer : t.peer = s.peer
  fifo : t.fifo = s.fifo
  answers : t.answers = s.answers
  draws : t.draws = s.draws

/-- No pin register and no working register has changed. -/
structure PinsKept (s t : State) : Prop where
  clk : t.clkOut = s.clkOut
  ce : t.ceOut = s.ceOut
  dat : t.datOut = s.datOut
  oe : t.datOe = s.datOe
  shreg : t.shreg = s.shreg
  bitcnt : t.bitcnt = s.bitcnt
  latch : t.latch = s.latch

/-- One byte of the peer's registers in a state. -/
def State.reg (s : State) (a : Nat) : Byte := s.peer.mem.read a

/-- The level of the `k`-th draw from a state on (R14). -/
def State.draw (s : State) (k : Nat) : Level :=
  s.answers.getD k (Config.drawLevel (s.draws + (k - s.answers.length)))

/-- The byte whose bit `k` is the level `f k` (R81). -/
def byteOf (f : Nat → Level) : Byte :=
  levelAt (f 0) 0 ||| levelAt (f 1) 1 ||| levelAt (f 2) 2 ||| levelAt (f 3) 3 |||
    levelAt (f 4) 4 ||| levelAt (f 5) 5 ||| levelAt (f 6) 6 ||| levelAt (f 7) 7

/-- `n` pin events of the command in progress. -/
def eventSteps : Nat → State → State
  | 0, s => s
  | n + 1, s => eventSteps n (eventStep s)

/-! ### Invariants -/

/-- The peer's registers keep their canonical form. -/
def MemInv (s : State) : Prop := s.peer.mem.wf = true

/-- Between commands, when no command can end in io-error (R22): the clock and chip-select are low, and the reference peer, unless it has
refused a frame, is in none. -/
structure RestInv (s : State) : Prop extends AtRest s where
  noFrame : s.cfg.line = .referencePeer → s.peer.outside = false → s.peer.inframe = false

end Sys2Proof.Machine
end

