-- ==== Sys2Proof/Certificates/Slice0/Obligations.lean ====
section
/-!
DEFINITION. The statements for the provers. `Ready s` is an idle engine whose pin operations cannot fail (the spec's default); the statements
about the registers of the peer have the reference peer as their hypothesis, as spec/93_implementation_defined.md U10 asks.
-/

open Sys2Proof Sys2Proof.Machine

/-! ### Encoding -/

/-- Decoding an encoded command gives it back, all its operands included, and with `PUBLIC_ONLY` exactly the internal commands become
illegal (R60 to R63). -/
def Obligations.DecodeOfEncodeIsTheCommand : Prop :=
  ∀ (i : Instr) (publicOnly : Bool), i.wf = true →
    decode publicOnly (encode i) =
      if publicOnly && i.opcode.internal then .illegal (.internalOpcode i.opcode) else .accepted i

/-- R63: the rows of the opcode map select by `match` and `mask`; a descriptor that a row selects is accepted as that row's command whatever
its other bits hold, unless it is internal and `PUBLIC_ONLY` is true; any other descriptor is illegal. -/
def Obligations.DecoderReadsTheOpcodeAlone : Prop :=
  ∀ (d : Descriptor) (publicOnly : Bool),
    (∀ o : Opcode, o.selects d = true →
      (publicOnly = false ∨ o.internal = false → ∃ i, decode publicOnly d = .accepted i ∧ i.opcode = o) ∧
      (publicOnly = true → o.internal = true → decode publicOnly d = .illegal (.internalOpcode o))) ∧
    ((∀ o : Opcode, o.selects d = false) → decode publicOnly d = .illegal (.reservedOpcode (opField d)))

/-- R61: a field that a command does not use has no effect on what is decoded. -/
def Obligations.UnusedFieldsAreIgnored : Prop :=
  ∀ (o : Opcode) (d d' : Descriptor) (publicOnly : Bool), opField d = o.code → opField d' = o.code →
    (o ∈ [Opcode.rdreg, .wrreg, .pwrreg, .rdram, .wrram] → aField d = aField d') →
    (o ∈ [Opcode.d2b, .b2d, .wrbyte, .wrreg, .pwrreg, .setyear, .setmonth, .setday, .sethour, .setmin, .setsec, .setwday,
      .wrram, .setdatetime] → vField 0 d = vField 0 d') →
    (o = .setdatetime → ∀ k, 1 ≤ k → k ≤ 6 → vField k d = vField k d') →
    decode publicOnly d = decode publicOnly d'

/-- Descriptors of the spec's test vectors (B5.1, B5.2) decode to the commands they stand for. -/
def Obligations.SampleDescriptorsDecode : Prop :=
  decode false 0x0100002D000000000000000000000000 = .accepted (.d2b 45) ∧
  decode false 0x02000023000000000000000000000000 = .accepted (.b2d 0x23) ∧
  decode false 0x100000A5000000000000000000000000 = .accepted (.wrbyte 0xA5) ∧
  decode false 0x20810000000000000000000000000000 = .accepted (.rdreg 0x81) ∧
  decode false 0x22840010000000000000000000000000 = .accepted (.pwrreg 0x84 0x10) ∧
  decode false 0x300007CF000000000000000000000000 = .accepted (.setyear 1999) ∧
  decode false 0x45FFFFFFFFFFFFFFFFFFFFFFFFFFFFFF = .accepted .getsec ∧
  decode false 0x50000000000000000000000000000000 = .accepted .start ∧
  decode false 0x6105007F000000000000000000000000 = .accepted (.wrram 5 0x7F) ∧
  decode false 0x700007E80003000F0005000A001E002D = .accepted (.setdatetime 2024 3 15 5 10 30 45)

/-- R66, R63: a descriptor with a reserved `op`, and with `PUBLIC_ONLY` one with an internal `op`, is refused by the decoder; the engine
performs no pin event, changes nothing but `STATUS` = 1 and `RESULT` = 0, and is ready for the next command.
That this is a next state of the machine is the model's choice (log 14). -/
def Obligations.IllegalDescriptorOnlyReportsIllegal : Prop :=
  ∀ (s : State) (d : Descriptor) (ds : List Descriptor), s.active = none → s.cmds = d :: ds →
    ((opField d = 0x00 ∨ (0x03 ≤ opField d ∧ opField d ≤ 0x0F) ∨ (0x12 ≤ opField d ∧ opField d ≤ 0x1F) ∨
        (0x23 ≤ opField d ∧ opField d ≤ 0x2F) ∨ (0x37 ≤ opField d ∧ opField d ≤ 0x3F) ∨ (0x47 ≤ opField d ∧ opField d ≤ 0x4F) ∨
        (0x52 ≤ opField d ∧ opField d ≤ 0x5F) ∨ (0x62 ≤ opField d ∧ opField d ≤ 0x6F) ∨ 0x71 ≤ opField d) ∨
      (s.cfg.publicOnly = true ∧ opField d ∈ [(0x01 : Byte), 0x02, 0x10, 0x11, 0x20, 0x21, 0x22])) →
    (∃ r, decode s.cfg.publicOnly d = .illegal r) ∧
    step s = .next { s with cmds := ds, status := .illegal, result := 0,
                            reports := { status := .illegal, result := 0 } :: s.reports }

/-! ### The step -/

/-- An idle engine's step carries out the next descriptor that the decoder accepts. The step's grain is the model's choice (log 1). -/
def Obligations.StepRunsTheDecodedCommand : Prop :=
  ∀ (s : State) (d : Descriptor) (ds : List Descriptor) (i : Instr), s.active = none → s.cmds = d :: ds →
    decode s.cfg.publicOnly d = .accepted i → step s = exec i { s with cmds := ds }

/-- A command placed at the command port is the very next one to run. How a program comes to run is the model's choice (log 2, 23). -/
def Obligations.PlacedDescriptorRunsNext : Prop :=
  ∀ (s : State) (nbits w : Nat) (i : Instr), decode s.cfg.publicOnly (BitVec.ofNat 128 (w % 2 ^ nbits)) = .accepted i →
    step (s.withFetchWord nbits w) = exec i { s with active := none, cmds := s.cmds.tail }

/-- An idle engine with no command issued does nothing (R162). The engine after reset is one. The step's grain is the model's choice (log 1). -/
def Obligations.IdleEngineStaysAsItIs : Prop :=
  (∀ s : State, s.active = none → s.cmds = [] → step s = .next s) ∧ step State.reset = .next State.reset

/-- The step always answers a next state: the engine is never stuck (U8, R148), and after it no command is in progress (R17, R176).
The step's grain is the model's choice (log 1). -/
def Obligations.EveryStepAnswersAnIdleEngine : Prop :=
  ∀ s : State, ∃ t, step s = .next t ∧ t.active = none

/-- While `BUSY` = 1 the port accepts nothing (R17, R146; U8). The fault is the model's way of saying so (log 8). -/
def Obligations.BusyPortAcceptsNothing : Prop :=
  ∀ (s : State) (i : Instr), s.busy = true → exec i s = .fault .portBusy

/-- Every command issued to an idle engine ends, whatever the environment does, and reports exactly one outcome (R145): done, or refused
for D2B above 99 unless that wraps, or io-error where pin operations can fail (R8, R140). `RESULT` is 0 unless it is done.
The grain of exec and the verdicts of pin operations are the model's choice (log 1, 9). -/
def Obligations.EveryCommandEndsWithOneReport : Prop :=
  ∀ (s : State) (i : Instr), s.active = none →
    ∃ t, exec i s = .next t ∧ t.active = none ∧
      t.reports = { status := t.status, result := t.result } :: s.reports ∧
      t.status ≠ .illegal ∧
      (t.status = .refused ↔ ∃ v, i = .d2b v ∧ 99 < v ∧ s.cfg.d2bWraps = false) ∧
      (t.status = .ioError → s.cfg.pinIoCanFail = true ∧ true ∈ s.ioFails ∧ eventCount i ≠ 0) ∧
      (t.status ≠ .done → t.result = 0) ∧ t.cfg = s.cfg ∧ t.cmds = s.cmds

/-- A command is carried out one pin event at a time: as many single events as its trace has, or one for a command without pin events, give
the same state as the whole command, io-error included (R18, R176). The two grains are the model's choice (log 1). -/
def Obligations.CommandIsItsPinEvents : Prop :=
  ∀ (s : State) (i : Instr), s.active = none →
    exec i s = .next (eventSteps (max 1 (eventCount i)) (s.accept i))

/-- A command in progress goes on from `SEQ` (R18): after any number of its events, the step gives what the whole command gives.
What is kept of a command in progress is the model's choice (log 1, 19). -/
def Obligations.StepResumesTheCommandInProgress : Prop :=
  ∀ (s : State) (i : Instr) (k : Nat), s.active = none → (eventSteps k (s.accept i)).active = some i →
    step (eventSteps k (s.accept i)) = exec i s

/-- While a command is in progress, each of its events advances `SEQ` by exactly one and appends exactly one event to the trace, until the
last one ends it or an io-error abandons it (R18). One pin event as a step is the model's choice (log 1). -/
def Obligations.EachPinEventAdvancesSeqByOne : Prop :=
  ∀ (s : State) (i : Instr), s.active = some i → s.seq < eventCount i → s.cfg.pinIoCanFail = false →
    (eventStep s).seq = s.seq + 1 ∧ (∃ e, (eventStep s).trace = s.trace ++ [e]) ∧
    ((eventStep s).active = none ↔ s.seq + 1 = eventCount i)

/-! ### The codec -/

/-- R70: D2B, for an operand up to 99 the BCD byte; above, refused, or as a parameter the truncated formula (U1). No pin event, and nothing
else changes but the port. The parameter is log 15. -/
def Obligations.D2bReturnsTheBcdByte : Prop :=
  ∀ (s : State) (v : Nat), s.active = none →
    ∃ t, exec (.d2b v) s = .next t ∧ PinsKept s t ∧ EnvKept s t ∧ t.log = s.log ∧ t.cfg = s.cfg ∧ t.cmds = s.cmds ∧
      t.ioFails = s.ioFails ∧ t.active = none ∧
      (v ≤ 99 → t.status = .done ∧ t.result.toNat = (v / 10) * 16 + v % 10) ∧
      (99 < v → s.cfg.d2bWraps = false → t.status = .refused ∧ t.result = 0) ∧
      (99 < v → s.cfg.d2bWraps = true → t.status = .done ∧ t.result.toNat = ((v / 10) * 16 + v % 10) % 256)

/-- R71: B2D, total on all bytes: tens times ten plus units of the low byte of `v0`, at most 165, and not injective on invalid bytes. No pin
event, and nothing else changes but the port. Its opcode is 0x02, whatever the other fields of the descriptor hold. -/
def Obligations.B2dReturnsTheValue : Prop :=
  (∀ (s : State) (v : Nat), s.active = none →
    ∃ t, exec (.b2d v) s = .next t ∧ PinsKept s t ∧ EnvKept s t ∧ EndsDone s t [] t.result ∧
      t.result.toNat = (v % 256 / 16) * 10 + v % 256 % 16 ∧ t.result.toNat ≤ 165) ∧
  (∀ d : Descriptor, opField d = 0x02 → decode false d = .accepted (.b2d (vField 0 d).toNat)) ∧ b2d 0x0A = b2d 0x10

/-- R72: D2B then B2D gives a value of 0 to 99 back; B2D then D2B gives a valid BCD byte back; the second law fails on 0x0A, and 0xA0 decodes
to a value outside D2B's domain. -/
def Obligations.CodecIsItsOwnInverse : Prop :=
  (∀ (s t : State) (d : Nat), s.active = none → d ≤ 99 → exec (.d2b d) s = .next t →
    ∃ u, exec (.b2d t.result.toNat) t = .next u ∧ u.status = .done ∧ u.result.toNat = d) ∧
  (∀ (s t : State) (b : Byte), s.active = none → (b >>> 4).toNat ≤ 9 → (b &&& 0x0F).toNat ≤ 9 → exec (.b2d b.toNat) s = .next t →
    ∃ u, exec (.d2b t.result.toNat) t = .next u ∧ u.status = .done ∧ u.result.toNat = b.toNat) ∧
  b2d 0x0A = 10 ∧ d2b 10 = 0x10 ∧ 99 < b2d 0xA0

/-! ### The byte transport -/

/-- WRBYTE sends the low byte of its operand, least significant bit first, each bit driven before its clock pulse (R80, R59, R82). `CE` and
the rest are left alone; outside a frame the peer does not notice (R83).
What `BITCNT` and `SEQ` hold after the end is the model's choice (log 19, 22). -/
def Obligations.WrbyteSendsItsByte : Prop :=
  ∀ (s : State) (v : Nat), Ready s →
    ∃ t, exec (.wrbyte v) s = .next t ∧ EndsDone s t (txEvents (trunc8 v)) 0 ∧
      t.clkOut = false ∧ t.ceOut = s.ceOut ∧ t.datOut = (trunc8 v).getLsbD 7 ∧ t.datOe = true ∧
      t.shreg = trunc8 v ∧ t.bitcnt = 8 ∧ t.latch = s.latch ∧ t.seq = 24 ∧ NoDraw s t ∧ OtherFixturesKept s t ∧
      (s.peer.inframe = false → t.peer = s.peer)

/-- RDBYTE returns the byte whose bit `k` is the `k`-th level read, each sampled before its clock pulse; it releases the data line (R81).
What `BITCNT` and `SEQ` hold after the end is the model's choice (log 19, 22). -/
def Obligations.RdbyteReturnsTheByteRead : Prop :=
  ∀ s : State, Ready s →
    ∃ t r, exec .rdbyte s = .next t ∧ EndsDone s t (rxEvents r) (zext16 r) ∧
      t.clkOut = false ∧ t.ceOut = s.ceOut ∧ t.datOut = s.datOut ∧ t.datOe = false ∧
      t.shreg = r ∧ t.bitcnt = 8 ∧ t.latch = s.latch ∧ t.seq = 24 ∧ OtherFixturesKept s t ∧
      (s.peer.inframe = false → t.peer = s.peer)

/-- Where nothing defined answers, every level is a draw: RDBYTE returns the next eight draws, the first as bit 0. So it is in the general
model, and outside a frame of the reference peer (R14, R83, U6).
The form of draws is the model's choice (log 3); after a refusal of the reference peer, log 10. -/
def Obligations.RdbyteOfDraws : Prop :=
  ∀ s : State, Ready s →
    (s.cfg.line = .general ∨ (s.cfg.line = .referencePeer ∧ (s.peer.inframe = false ∨ s.peer.outside = true))) →
    ∃ t, exec .rdbyte s = .next t ∧ t.result = zext16 (byteOf s.draw) ∧ EightDraws s t

/-- Under the FIFO loopback RDBYTE returns the byte that WRBYTE sent; under the mirror loopback it returns eight copies of its last bit
(R49, R84, C3). -/
def Obligations.LoopbackReturnsTheByteSent : Prop :=
  ∀ (s t u : State) (v : Nat), AtRest s → exec (.wrbyte v) s = .next t → exec .rdbyte t = .next u →
    (s.cfg.line = .fifoLoopback → s.fifo = [] → u.result = zext16 (trunc8 v) ∧ u.fifo = []) ∧
    (s.cfg.line = .mirrorLoopback → u.result = if (trunc8 v).getLsbD 7 then 0xFF else 0x00)

/-! ### The register framing layer -/

/-- RDREG is one read frame at its address, which is sent unchecked, and returns the byte read (R90, R93).
What `BITCNT` and `SEQ` hold after the end is the model's choice (log 19, 22), here and in the statements below. -/
def Obligations.RdregIsOneReadFrame : Prop :=
  ∀ (s : State) (a : Byte), Ready s →
    ∃ t r, exec (.rdreg a) s = .next t ∧ EndsDone s t (framesEvents [.read a r]) (zext16 r) ∧ AfterRead a r t ∧
      t.latch = s.latch ∧ t.seq = 50 ∧ OtherFixturesKept s t

/-- In the general model the byte a read frame returns is the next eight draws, for every command of one read frame (R90, U3, U4, U6). So
it is after the reference peer has refused a frame. The form of draws and the refusal are the model's choice (log 3, 10). -/
def Obligations.ReadFramesOfDraws : Prop :=
  ∀ (s : State) (i : Instr) (a : Byte), Ready s →
    (s.cfg.line = .general ∨ (s.cfg.line = .referencePeer ∧ s.peer.outside = true)) →
    (i = .rdreg a ∨ (∃ k, i = .rdram k ∧ a = ramReadAddr k) ∨ (∃ f : Field, i = f.getCmd ∧ a = readAddr f.writeAddr)) →
    ∃ t, exec i s = .next t ∧ t.trace = s.trace ++ framesEvents [.read a (byteOf s.draw)] ∧ EightDraws s t

/-- R52 and R53, event by event: the 50 events of a write frame and of a read frame, every bit least significant first, each driven or
sampled before its clock pulse. -/
def Obligations.FrameLayouts : Prop :=
  (∀ (s : State) (a : Byte) (v : Nat), Ready s →
    ∃ (t : State) (evs : List PinEvent), exec (.wrreg a v) s = .next t ∧ t.trace = s.trace ++ evs ∧ evs.length = 50 ∧
      evs.head? = some (.w .ce true) ∧ evs.getLast? = some (.w .ce false) ∧
      ∀ k, k < 8 → bitAt evs (1 + 3 * k) (.w .dat (a.getLsbD k)) ∧ bitAt evs (25 + 3 * k) (.w .dat (v.testBit k))) ∧
  (∀ (s : State) (a : Byte), Ready s →
    ∃ (t : State) (evs : List PinEvent), exec (.rdreg a) s = .next t ∧ t.trace = s.trace ++ evs ∧ evs.length = 50 ∧
      evs.head? = some (.w .ce true) ∧ evs.getLast? = some (.w .ce false) ∧
      ∀ k, k < 8 → bitAt evs (1 + 3 * k) (.w .dat (a.getLsbD k)) ∧ bitAt evs (25 + 3 * k) (.r (t.result.getLsbD k)))

/-- WRREG is one write frame at its address, which is sent unchecked, with the low byte of its operand (R91, R59, R93). -/
def Obligations.WrregIsOneWriteFrame : Prop :=
  ∀ (s : State) (a : Byte) (v : Nat), Ready s →
    ∃ t, exec (.wrreg a v) s = .next t ∧ EndsDone s t (framesEvents [.write a (trunc8 v)]) 0 ∧ AfterWrite (trunc8 v) t ∧
      t.latch = s.latch ∧ t.seq = 50 ∧ NoDraw s t ∧ OtherFixturesKept s t

/-- PWRREG is the three frames disable, write, disable; protection is not restored (R92). -/
def Obligations.PwrregIsTheProtectedWrite : Prop :=
  ∀ (s : State) (a : Byte) (v : Nat), Ready s →
    ∃ t, exec (.pwrreg a v) s = .next t ∧ EndsDone s t (framesEvents (protectedFrames a (trunc8 v))) 0 ∧ AfterWrite 0 t ∧
      t.latch = s.latch ∧ t.seq = 150 ∧ NoDraw s t ∧ OtherFixturesKept s t

/-! ### The field commands -/

/-- Every setter wraps its operand by the field's modulus, encodes it in BCD and writes it through the protected write at the field's write
address (R100, R110 to R117); it reads nothing. -/
def Obligations.SettersWriteTheWrappedField : Prop :=
  ∀ (s : State) (f : Field) (v : Nat), Ready s →
    ∃ t, exec (f.setCmd v) s = .next t ∧
      EndsDone s t (framesEvents (protectedFrames f.writeAddr (d2b (v % f.modulus)))) 0 ∧ AfterWrite 0 t ∧
      t.latch = s.latch ∧ t.seq = 150 ∧ NoDraw s t ∧ OtherFixturesKept s t

/-- R58: the byte a setter writes is `D2B(v mod M)` with M = 100 (year), 13 (month), 32 (day), 8 (weekday), 24 (hour), 60 (minute), 60
(second), for every natural `v`: an input is never rejected and always wrapped, and what is written is a valid BCD byte whose value is
`v mod M`. The address of each field is that of R100. -/
def Obligations.SetterOperandsWrap : Prop :=
  ∀ (s : State) (v : Nat) (f : Field) (M : Nat) (w : Byte), Ready s →
    (f, M, w) ∈ [(Field.year, 100, (0x8C : Byte)), (.month, 13, 0x88), (.day, 32, 0x86), (.weekday, 8, 0x8A), (.hour, 24, 0x84),
      (.minute, 60, 0x82), (.second, 60, 0x80)] →
    ∃ t b, exec (f.setCmd v) s = .next t ∧ t.status = .done ∧ validBcd b = true ∧ b2d b = v % M ∧ b = d2b (v % M) ∧
      t.trace = s.trace ++ framesEvents [.write 0x8E 0x00, .write w b, .write 0x8E 0x00]

/-- Every getter (R101) is one read frame at the field's read address, an odd one, and returns the decoded byte, valid BCD or not: the year
plus 2000, hour, minute and second reduced modulo 24, 60 and 60, the others as they are. Nothing is cached: each is a frame of its own.
What `BITCNT` and `SEQ` hold after the end is the model's choice (log 22, 19). -/
def Obligations.GettersReturnTheDecodedField : Prop :=
  ∀ (s : State) (f : Field), Ready s →
    ∃ t r d, exec f.getCmd s = .next t ∧ d = r.toNat / 16 * 10 + r.toNat % 16 ∧
      EndsDone s t (framesEvents [.read (f.writeAddr + 1) r])
        (BitVec.ofNat 16 (if f = .year then d + 2000 else if f = .hour then d % 24
          else if f = .minute ∨ f = .second then d % 60 else d)) ∧
      (framesEvents [.read (f.writeAddr + 1) r]).length = 50 ∧ readDirection (f.writeAddr + 1) = true ∧
      AfterRead (f.writeAddr + 1) r t ∧ t.latch = s.latch ∧ t.seq = 50 ∧ OtherFixturesKept s t

/-- R56: the read address of a register is its write address plus one: the addition sets bit 0, changes no other bit and never carries; every
getter sends it. -/
def Obligations.ReadAddressIsWritePlusOne : Prop :=
  (∀ w : Byte, isWriteAddr w.toNat = true →
    (w + 1).toNat = w.toNat + 1 ∧ (w + 1).getLsbD 0 = true ∧ ∀ k, k ≠ 0 → (w + 1).getLsbD k = w.getLsbD k) ∧
  (∀ (s : State) (f : Field) (w : Byte), Ready s →
    (f, w) ∈ [(Field.year, (0x8C : Byte)), (.month, 0x88), (.day, 0x86), (.weekday, 0x8A), (.hour, 0x84), (.minute, 0x82),
      (.second, 0x80)] →
    ∃ t r, exec f.getCmd s = .next t ∧ t.trace = s.trace ++ framesEvents [.read (w + 1) r])

/-- Whatever bytes the environment answers, a getter's result is in its range (the table of R100). -/
def Obligations.GetterResultsAreInRange : Prop :=
  ∀ (s : State), Ready s →
    (∃ t, exec .getyear s = .next t ∧ 2000 ≤ t.result.toNat ∧ t.result.toNat ≤ 2165) ∧
    (∃ t, exec .getmonth s = .next t ∧ t.result.toNat ≤ 165) ∧ (∃ t, exec .getday s = .next t ∧ t.result.toNat ≤ 165) ∧
    (∃ t, exec .gethour s = .next t ∧ t.result.toNat ≤ 23) ∧ (∃ t, exec .getmin s = .next t ∧ t.result.toNat ≤ 59) ∧
    (∃ t, exec .getsec s = .next t ∧ t.result.toNat ≤ 59) ∧ (∃ t, exec .getwday s = .next t ∧ t.result.toNat ≤ 165)

/-- START and PAUSE read the raw seconds byte and write it back through the protected write with bit 7 cleared or set, neither wrapped nor
BCD-encoded (R120, R121, C1). -/
def Obligations.StartAndPauseChangeTheHaltBitAlone : Prop :=
  ∀ s : State, Ready s →
    (∃ t r, exec .start s = .next t ∧
      EndsDone s t (framesEvents (.read 0x81 r :: protectedFrames 0x80 (r &&& 0x7F))) 0 ∧ AfterWrite 0 t ∧
      t.latch = r ∧ t.seq = 200 ∧ OtherFixturesKept s t) ∧
    (∃ t r, exec .pause s = .next t ∧
      EndsDone s t (framesEvents (.read 0x81 r :: protectedFrames 0x80 (r ||| 0x80))) 0 ∧ AfterWrite 0 t ∧
      t.latch = r ∧ t.seq = 200 ∧ OtherFixturesKept s t)

/-- RDRAM is one read frame at `0xC1 + 2*(i mod 31)` and returns the byte as read (R122). -/
def Obligations.RdramReadsItsSlot : Prop :=
  ∀ (s : State) (i : Nat), Ready s →
    ∃ t r, exec (.rdram i) s = .next t ∧
      EndsDone s t (framesEvents [.read (BitVec.ofNat 8 (0xC1 + 2 * (i % 31))) r]) (zext16 r) ∧
      AfterRead (BitVec.ofNat 8 (0xC1 + 2 * (i % 31))) r t ∧ t.latch = s.latch ∧ t.seq = 50 ∧ OtherFixturesKept s t

/-- WRRAM writes the low byte of its operand, unconverted, at `0xC0 + 2*(i mod 31)` through the protected write (R123). -/
def Obligations.WrramWritesItsSlot : Prop :=
  ∀ (s : State) (i v : Nat), Ready s →
    ∃ t, exec (.wrram i v) s = .next t ∧
      EndsDone s t (framesEvents (protectedFrames (BitVec.ofNat 8 (0xC0 + 2 * (i % 31))) (trunc8 v))) 0 ∧ AfterWrite 0 t ∧
      t.latch = s.latch ∧ t.seq = 150 ∧ NoDraw s t ∧ OtherFixturesKept s t

/-- R57: any slot index is reduced modulo 31; the write address runs over the even values 0xC0 to 0xFC and the read address over the odd
values 0xC1 to 0xFD, without truncation; RDRAM and WRRAM send exactly these. -/
def Obligations.RamSlotAddresses : Prop :=
  ∀ (s : State) (i v : Nat), Ready s →
    ∃ (wa ra : Byte) (t u : State) (r : Byte), wa.toNat = 0xC0 + 2 * (i % 31) ∧ ra.toNat = 0xC0 + 1 + 2 * (i % 31) ∧
      0xC0 ≤ wa.toNat ∧ wa.toNat ≤ 0xFC ∧ 0xC1 ≤ ra.toNat ∧ ra.toNat ≤ 0xFD ∧
      exec (.wrram i v) s = .next t ∧ t.trace = s.trace ++ framesEvents (protectedFrames wa (trunc8 v)) ∧
      exec (.rdram i) s = .next u ∧ u.trace = s.trace ++ framesEvents [.read ra r]

/-- SETDATETIME is the seven protected writes year, month, day, weekday, hour, minute, second, each argument wrapped by its own modulus
(R124). -/
def Obligations.SetdatetimeWritesSevenFields : Prop :=
  ∀ (s : State) (y mo d w h mi sec : Nat), Ready s →
    ∃ t, exec (.setdatetime y mo d w h mi sec) s = .next t ∧
      EndsDone s t (framesEvents (dateTimeFrames y mo d w h mi sec)) 0 ∧ AfterWrite 0 t ∧
      t.latch = s.latch ∧ t.seq = 1050 ∧ NoDraw s t ∧ OtherFixturesKept s t

/-! ### Traces of all commands -/

/-- The table of R64: frames' worth of chip-select edges, clock pulses, writes and reads of every command, whatever its operands and the
levels read. -/
def Obligations.TraceLengthsAreFixedByTheOpcode : Prop :=
  ∀ (s : State) (i : Instr), Ready s →
    ∃ t evs, exec i s = .next t ∧ t.trace = s.trace ++ evs ∧ evs.length = eventCount i ∧
      (evs.filter PinEvent.isRead).length = readCount i ∧
      evs.count (.w .clk true) = pulseCount i ∧ evs.count (.w .clk false) = pulseCount i ∧
      evs.count (.w .ce true) = frameCount i ∧ evs.count (.w .ce false) = frameCount i

/-- The number, kind and order of the pin events of a command depend on its opcode alone: operands and levels read can change only the
levels on the data line (R131). -/
def Obligations.EventShapesDependOnTheOpcodeAlone : Prop :=
  ∀ (s s' : State) (i i' : Instr), Ready s → Ready s' → i.opcode = i'.opcode →
    ∃ t t' evs evs', exec i s = .next t ∧ exec i' s' = .next t' ∧ t.trace = s.trace ++ evs ∧ t'.trace = s'.trace ++ evs' ∧
      evs.map PinEvent.shape = evs'.map PinEvent.shape

/-- Every command above the byte transport is a sequence of whole frames, each with exactly one address and one data byte (R50, R95). The
field commands use only the 77 mapped addresses, read frames at odd and write frames at even ones, and write nothing but 0 to the
write-protect register (R38, R69, R94). -/
def Obligations.CommandsAreSequencesOfFrames : Prop :=
  ∀ (s : State) (i : Instr), Ready s → i.opcode ∉ [Opcode.d2b, .b2d, .wrbyte, .rdbyte] →
    ∃ t fs, exec i s = .next t ∧ t.trace = s.trace ++ framesEvents fs ∧ fs.length = frameCount i ∧
      (i.opcode.internal = false → ∀ f ∈ fs, f.addr.toNat ∈ fieldAddresses ∧ readDirection f.addr = f.isRead ∧
        ∀ v, f = .write 0x8E v → v = 0)

/-- Statelessness (R26): two runs of one command from states that differ in the pin registers `DAT_OUT` and `DAT_OE`, the working registers,
`RESULT`, `STATUS` and the records, with the same environment, give the same trace, the same result and the same outcome; the mirror
loopback, which answers with `DAT_OUT` itself, is left out. -/
def Obligations.CommandsDoNotDependOnWhatRanBefore : Prop :=
  ∀ (s s' t t' : State) (i : Instr), s.active = none → s'.active = none →
    s.cfg = s'.cfg → s.cfg.line ≠ .mirrorLoopback → s.clkOut = s'.clkOut → s.ceOut = s'.ceOut → s.peer = s'.peer →
    s.fifo = s'.fifo → s.answers = s'.answers → s.draws = s'.draws → s.ioFails = s'.ioFails →
    exec i s = .next t → exec i s' = .next t' →
    (∃ evs, t.trace = s.trace ++ evs ∧ t'.trace = s'.trace ++ evs) ∧ t.result = t'.result ∧ t.status = t'.status ∧
      t.peer = t'.peer

/-! ### The registers of the reference peer -/

/-- WRREG at the reference peer (R45): a write to 0x8E is always taken, a write to another mapped write address is taken exactly while
`REG[0x8E] & WP_MASK` is 0 and dropped otherwise, without a sign of it; every other register keeps its byte. -/
def Obligations.WrregAtTheReferencePeer : Prop :=
  ∀ (s : State) (a : Byte) (v : Nat), OnStaticPeer s → MemInv s → isWriteAddr a.toNat = true →
    ∃ t, exec (.wrreg a v) s = .next t ∧ t.status = .done ∧ OnStaticPeer t ∧
      (∀ x, t.reg x = if x = a.toNat ∧ (a = 0x8E ∨ s.reg 0x8E &&& s.cfg.wpMask = 0) then trunc8 v else s.reg x)

/-- A write frame at an address that is odd or not mapped: the engine performs it and ends done; the reference peer refuses it and answers
nothing any more, and no register changes (R45, R93; log 10). When in the frame it refuses is log 11. -/
def Obligations.WrregOutsideTheReferencePeer : Prop :=
  ∀ (s : State) (a : Byte) (v : Nat), OnStaticPeer s → isWriteAddr a.toNat = false →
    ∃ t, exec (.wrreg a v) s = .next t ∧ EndsDone s t (framesEvents [.write a (trunc8 v)]) 0 ∧ t.peer.outside = true ∧
      ∀ x, t.reg x = s.reg x

/-- Reads at the reference peer (R46): RDREG at a mapped read address, RDRAM and the getters return the register's byte, decoded by the
getters, and no register changes. -/
def Obligations.ReadsReturnTheRegister : Prop :=
  (∀ (s : State) (a : Byte), OnStaticPeer s → isWriteAddr a.toNat = true →
    ∃ t, exec (.rdreg (a + 1)) s = .next t ∧ t.result = zext16 (s.reg a.toNat) ∧ OnStaticPeer t ∧ NoDraw s t ∧ ∀ x, t.reg x = s.reg x) ∧
  (∀ (s : State) (i : Nat), OnStaticPeer s →
    ∃ t, exec (.rdram i) s = .next t ∧ t.result = zext16 (s.reg (0xC0 + 2 * (i % 31))) ∧ OnStaticPeer t ∧ NoDraw s t ∧
      ∀ x, t.reg x = s.reg x) ∧
  (∀ (s : State) (f : Field), OnStaticPeer s →
    ∃ t, exec f.getCmd s = .next t ∧ t.result = BitVec.ofNat 16 (f.post (b2d (s.reg f.writeAddr.toNat))) ∧ OnStaticPeer t ∧
      NoDraw s t ∧ ∀ x, t.reg x = s.reg x)

/-- A read frame that the reference peer refuses, at an even address or one that is not mapped: the engine performs it, the levels are draws
(R46, U3, U4), the fixture answers nothing any more (log 10), and no register changes. The form of draws is log 3. -/
def Obligations.RdregOutsideTheReferencePeer : Prop :=
  ∀ (s : State) (a : Byte), OnStaticPeer s → (∀ w : Byte, isWriteAddr w.toNat = true → a ≠ w + 1) →
    ∃ t, exec (.rdreg a) s = .next t ∧ EndsDone s t (framesEvents [.read a (byteOf s.draw)]) (zext16 (byteOf s.draw)) ∧
      t.peer.outside = true ∧ ∀ x, t.reg x = s.reg x

/-- Protected writes at the reference peer (R92, R110, R123): PWRREG at a mapped write address, the setters and WRRAM are taken whatever the
protection was, leave it off, and change no other register; PWRREG at 0x8E leaves 0 there. -/
def Obligations.ProtectedWritesAreTaken : Prop :=
  ∀ (s : State) (i : Instr) (a v : Byte), OnStaticPeer s → MemInv s →
    ((∃ n, i = .pwrreg a n ∧ v = trunc8 n ∧ isWriteAddr a.toNat = true) ∨
      (∃ (f : Field) (n : Nat), i = f.setCmd n ∧ a = f.writeAddr ∧ v = d2b (n % f.modulus)) ∨
      (∃ k n, i = .wrram k n ∧ a = BitVec.ofNat 8 (0xC0 + 2 * (k % 31)) ∧ v = trunc8 n)) →
    ∃ t, exec i s = .next t ∧ OnStaticPeer t ∧
      ∀ x, t.reg x = if x = 0x8E then 0x00 else if x = a.toNat then v else s.reg x

/-- START and PAUSE at the reference peer (R120, R121): bit 7 of the seconds register is cleared or set, its other bits and every other
register kept, but for protection, which is off afterwards. -/
def Obligations.StartAndPauseAtTheReferencePeer : Prop :=
  ∀ s : State, OnStaticPeer s → MemInv s →
    (∃ t, exec .start s = .next t ∧ OnStaticPeer t ∧
      ∀ x, t.reg x = if x = 0x8E then 0x00 else if x = 0x80 then s.reg 0x80 &&& 0x7F else s.reg x) ∧
    (∃ t, exec .pause s = .next t ∧ OnStaticPeer t ∧
      ∀ x, t.reg x = if x = 0x8E then 0x00 else if x = 0x80 then s.reg 0x80 ||| 0x80 else s.reg x)

/-- SETDATETIME at the reference peer (R124): the seven registers hold the wrapped BCD values, the chip runs (bit 7 of seconds is 0),
protection is off, the control register and RAM are kept. -/
def Obligations.SetdatetimeAtTheReferencePeer : Prop :=
  ∀ (s : State) (y mo d w h mi sec : Nat), OnStaticPeer s → MemInv s →
    ∃ t, exec (.setdatetime y mo d w h mi sec) s = .next t ∧ OnStaticPeer t ∧
      (t.reg 0x80).getLsbD 7 = false ∧
      ∀ x, t.reg x =
        if x = 0x8E then 0x00 else if x = 0x80 then d2b (sec % 60) else if x = 0x82 then d2b (mi % 60)
        else if x = 0x84 then d2b (h % 24) else if x = 0x8A then d2b (w % 8) else if x = 0x86 then d2b (d % 32)
        else if x = 0x88 then d2b (mo % 13) else if x = 0x8C then d2b (y % 100) else s.reg x

/-- R125, read-back under the reference peer: a getter after its setter, RDRAM after WRRAM of the same slot, RDREG 0x81 after PAUSE and
after START. -/
def Obligations.ReadBackReturnsWhatWasWritten : Prop :=
  (∀ (s t : State) (f : Field) (v : Nat), OnStaticPeer s → MemInv s → exec (f.setCmd v) s = .next t →
    ∃ u, exec f.getCmd t = .next u ∧
      u.result.toNat = if f = .year then 2000 + v % 100 else v % f.modulus) ∧
  (∀ (s t : State) (i j v : Nat), OnStaticPeer s → MemInv s → j % 31 = i % 31 → exec (.wrram i v) s = .next t →
    ∃ u, exec (.rdram j) t = .next u ∧ u.result = zext16 (trunc8 v)) ∧
  (∀ (s t : State), OnStaticPeer s → MemInv s → exec .pause s = .next t →
    ∃ u, exec (.rdreg 0x81) t = .next u ∧ u.result = zext16 (s.reg 0x80 ||| 0x80)) ∧
  (∀ (s t : State), OnStaticPeer s → MemInv s → exec .start s = .next t →
    ∃ u, exec (.rdreg 0x81) t = .next u ∧ u.result = zext16 (s.reg 0x80 &&& 0x7F))

/-- GETSEC decodes the whole byte, halt bit included (R107, R173): for stored seconds `n` it returns `n` while the chip runs and
`(n + 20) mod 60` while it is paused. -/
def Obligations.GetsecDecodesTheHaltBit : Prop :=
  ∀ (s : State) (n : Nat), OnStaticPeer s → n < 60 →
    (s.reg 0x80 = d2b n → ∃ t, exec .getsec s = .next t ∧ t.result.toNat = n) ∧
    (s.reg 0x80 = (0x80 + d2b n) → ∃ t, exec .getsec s = .next t ∧ t.result.toNat = (n + 20) % 60)

/-- Time in the chip (R48): whatever passes before a read frame, it changes neither the write-protect register, nor the control register, nor
RAM, nor the halt bit; while the chip is halted it changes nothing. The form of `PeerTick` is log 12. -/
def Obligations.TimeChangesOnlyTheRunningClock : Prop :=
  ∀ (s : State) (i : Instr), OnPeer s → MemInv s →
    (i = .getsec ∨ i = .getmin ∨ i = .gethour ∨ i = .getday ∨ i = .getmonth ∨ i = .getwday ∨ i = .getyear ∨ i = .rdreg 0x81 ∨
      ∃ k, i = .rdram k) →
    ∃ t, exec i s = .next t ∧ OnPeer t ∧ t.peer.ticks = s.peer.ticks.tail ∧
      t.reg 0x8E = s.reg 0x8E ∧ t.reg 0x90 = s.reg 0x90 ∧ (∀ k, k < 31 → t.reg (0xC0 + 2 * k) = s.reg (0xC0 + 2 * k)) ∧
      (t.reg 0x80).getLsbD 7 = (s.reg 0x80).getLsbD 7 ∧
      ((s.reg 0x80).getLsbD 7 = true → ∀ x, t.reg x = s.reg x)

/-! ### Failure of a pin operation -/

/-- io-error (R142, R143, R147): when the pin operation of event `k` fails, exactly the events before it have happened, then chip-select is
driven low unless that fails too, and the command ends with `STATUS` 3 and `RESULT` 0. The events before are those of the same command
on an engine that cannot fail. The form of the verdicts is the model's choice (log 9). -/
def Obligations.IoErrorKeepsAPrefixAndCleansUp : Prop :=
  ∀ (s : State) (i : Instr) (k : Nat) (rest : List Bool), s.active = none → s.cfg.pinIoCanFail = true →
    s.ioFails = List.replicate k false ++ true :: rest → k < eventCount i →
    ∃ t u evs more, exec i s = .next t ∧ exec i { s with cfg := { s.cfg with pinIoCanFail := false } } = .next u ∧
      u.trace = s.trace ++ evs ++ more ∧ evs.length = k ∧
      t.trace = s.trace ++ evs ++ (if rest.head? = some true then [] else [.w .ce false]) ∧
      (rest.head? ≠ some true → t.ceOut = false) ∧
      t.status = .ioError ∧ t.result = 0 ∧ t.active = none ∧ t.cfg = s.cfg ∧ t.cmds = s.cmds ∧ t.ioFails = rest.tail

/-- Where pin operations can fail and none of a command's does, it ends as on an engine that cannot fail (R142).
The form of the verdicts is the model's choice (log 9). -/
def Obligations.NoFailureIsNoDifference : Prop :=
  ∀ (s : State) (i : Instr) (rest : List Bool), s.active = none → s.cfg.pinIoCanFail = true →
    s.ioFails = List.replicate (eventCount i) false ++ rest →
    ∃ u, exec i { s with cfg := { s.cfg with pinIoCanFail := false } } = .next u ∧
      exec i s = .next { u with cfg := s.cfg, ioFails := rest }

/-! ### Reset -/

/-- Construction (R160, R161, R24, R164): the two events `W(CLK,0) W(CE,0)`, the data line released, the port idle, the environment as it was
when the peer is in no frame; the parameters but the pins as they were. An idle engine may be constructed again on any pins that no other
instance holds, its own among them; one whose command is in progress only on pins that are not its own. That the records begin anew, and
what a construction beside a command in progress or on some of an idle engine's pins answers, is the model's choice (log 25, 26). -/
def Obligations.CreateResetsTheEngine : Prop :=
  ∀ (s : State) (others : List Pins) (c d e : Nat), c ≠ d → c ≠ e → d ≠ e →
    (∀ p ∈ others, ∀ x ∈ [c, d, e], x ≠ p.clk ∧ x ≠ p.dat ∧ x ≠ p.ce) →
    (s.busy = true → ∀ x ∈ [c, d, e], x ≠ s.cfg.pins.clk ∧ x ≠ s.cfg.pins.dat ∧ x ≠ s.cfg.pins.ce) → s.peer.inframe = false →
    ∃ t, create others c d e s = .next t ∧ t.trace = [.w .clk false, .w .ce false] ∧
      t.clkOut = false ∧ t.ceOut = false ∧ t.datOut = false ∧ t.datOe = false ∧ t.busy = false ∧ t.result = 0 ∧
      t.status = .done ∧ t.cfg.pins.clk = c ∧ t.cfg.pins.dat = d ∧ t.cfg.pins.ce = e ∧
      t.cfg = { s.cfg with pins := t.cfg.pins } ∧ EnvKept s t

/-- Construction with two equal pin identifiers, with a pin that another instance holds, or with a pin of an engine whose command is in
progress, is refused (R11, R153, R164; D19). -/
def Obligations.CreateRefusesSharedPins : Prop :=
  (∀ (s : State) (others : List Pins) (c d e : Nat), c = d ∨ c = e ∨ d = e →
    create others c d e s = .refused .pinsNotDistinct) ∧
  (∀ (s : State) (others : List Pins) (p : Pins) (c d e : Nat), c ≠ d → c ≠ e → d ≠ e → p ∈ others →
    (∃ x ∈ [c, d, e], x = p.clk ∨ x = p.dat ∨ x = p.ce) → create others c d e s = .refused .pinsShared) ∧
  (∀ (s : State) (others : List Pins) (c d e : Nat), c ≠ d → c ≠ e → d ≠ e → s.busy = true →
    (∃ x ∈ [c, d, e], x = s.cfg.pins.clk ∨ x = s.cfg.pins.dat ∨ x = s.cfg.pins.ce) →
    create others c d e s = .refused .pinsShared)

/-- The state after reset (R24): the values the spec gives, and the trace of reset. That the records begin so is log 16. -/
def Obligations.ResetValues : Prop :=
  State.reset.clkOut = false ∧ State.reset.ceOut = false ∧ State.reset.datOut = false ∧ State.reset.datOe = false ∧
  State.reset.busy = false ∧ State.reset.result = 0 ∧ State.reset.status.code = 0 ∧
  State.reset.trace = [.w .clk false, .w .ce false] ∧ State.reset.reports = []

/-! ### Invariants -/

/-- The peer's registers keep their canonical form in every step, whatever the command and whatever fails.
The form is the model's choice (log 20). -/
def Obligations.MemoryStaysCanonical : Prop :=
  ∀ s t : State, MemInv s → step s = .next t → MemInv t

/-- Between commands, when pin operations cannot fail, the clock and chip-select are low and no frame is open at the peer: every step keeps
it (R22). -/
def Obligations.LinesRestBetweenCommands : Prop :=
  ∀ s t : State, RestInv s → step s = .next t → RestInv t

/-- Both invariants hold after reset. What the environment holds after reset is the model's choice (log 4). -/
def Obligations.InvariantsHoldAtReset : Prop := MemInv State.reset ∧ RestInv State.reset

/-- No step changes a parameter (R11), the trace and the reports only grow, at most one command is reported in a step, and the host's
commands are taken in order (R43). The records are the model's (log 16). -/
def Obligations.StepsOnlyAppendToTheRecords : Prop :=
  ∀ s t : State, step s = .next t →
    t.cfg = s.cfg ∧ (∃ evs, t.trace = s.trace ++ evs) ∧
    (t.reports = s.reports ∨ ∃ r, t.reports = r :: s.reports) ∧ (t.cmds = s.cmds ∨ t.cmds = s.cmds.tail)
end

