-- ==== Sys2Proof/Laws/State.lean ====
section
/-!
SUPPORT. One lemma per field per update of State, so that no later proof unfolds a record update.
-/
namespace Sys2Proof.Machine

/-! `endWith` -/

@[simp] theorem endWith_cfg (st : Status) (r : Half) (s : State) : (s.endWith st r).cfg = s.cfg := rfl
@[simp] theorem endWith_clkOut (st : Status) (r : Half) (s : State) : (s.endWith st r).clkOut = s.clkOut := rfl
@[simp] theorem endWith_ceOut (st : Status) (r : Half) (s : State) : (s.endWith st r).ceOut = s.ceOut := rfl
@[simp] theorem endWith_datOut (st : Status) (r : Half) (s : State) : (s.endWith st r).datOut = s.datOut := rfl
@[simp] theorem endWith_datOe (st : Status) (r : Half) (s : State) : (s.endWith st r).datOe = s.datOe := rfl
@[simp] theorem endWith_active (st : Status) (r : Half) (s : State) : (s.endWith st r).active = none := rfl
@[simp] theorem endWith_seq (st : Status) (r : Half) (s : State) : (s.endWith st r).seq = s.seq := rfl
@[simp] theorem endWith_shreg (st : Status) (r : Half) (s : State) : (s.endWith st r).shreg = s.shreg := rfl
@[simp] theorem endWith_bitcnt (st : Status) (r : Half) (s : State) : (s.endWith st r).bitcnt = s.bitcnt := rfl
@[simp] theorem endWith_latch (st : Status) (r : Half) (s : State) : (s.endWith st r).latch = s.latch := rfl
@[simp] theorem endWith_result (st : Status) (r : Half) (s : State) : (s.endWith st r).result = r := rfl
@[simp] theorem endWith_status (st : Status) (r : Half) (s : State) : (s.endWith st r).status = st := rfl
@[simp] theorem endWith_cmds (st : Status) (r : Half) (s : State) : (s.endWith st r).cmds = s.cmds := rfl
@[simp] theorem endWith_peer (st : Status) (r : Half) (s : State) : (s.endWith st r).peer = s.peer := rfl
@[simp] theorem endWith_fifo (st : Status) (r : Half) (s : State) : (s.endWith st r).fifo = s.fifo := rfl
@[simp] theorem endWith_answers (st : Status) (r : Half) (s : State) : (s.endWith st r).answers = s.answers := rfl
@[simp] theorem endWith_draws (st : Status) (r : Half) (s : State) : (s.endWith st r).draws = s.draws := rfl
@[simp] theorem endWith_ioFails (st : Status) (r : Half) (s : State) : (s.endWith st r).ioFails = s.ioFails := rfl
@[simp] theorem endWith_log (st : Status) (r : Half) (s : State) : (s.endWith st r).log = s.log := rfl
@[simp] theorem endWith_reports (st : Status) (r : Half) (s : State) : (s.endWith st r).reports = { status := st, result := r } :: s.reports := rfl

/-! `accept` -/

@[simp] theorem accept_cfg (i : Instr) (s : State) : (s.accept i).cfg = s.cfg := rfl
@[simp] theorem accept_clkOut (i : Instr) (s : State) : (s.accept i).clkOut = s.clkOut := rfl
@[simp] theorem accept_ceOut (i : Instr) (s : State) : (s.accept i).ceOut = s.ceOut := rfl
@[simp] theorem accept_datOut (i : Instr) (s : State) : (s.accept i).datOut = s.datOut := rfl
@[simp] theorem accept_datOe (i : Instr) (s : State) : (s.accept i).datOe = s.datOe := rfl
@[simp] theorem accept_active (i : Instr) (s : State) : (s.accept i).active = some i := rfl
@[simp] theorem accept_seq (i : Instr) (s : State) : (s.accept i).seq = 0 := rfl
@[simp] theorem accept_shreg (i : Instr) (s : State) : (s.accept i).shreg = s.shreg := rfl
@[simp] theorem accept_bitcnt (i : Instr) (s : State) : (s.accept i).bitcnt = s.bitcnt := rfl
@[simp] theorem accept_latch (i : Instr) (s : State) : (s.accept i).latch = s.latch := rfl
@[simp] theorem accept_result (i : Instr) (s : State) : (s.accept i).result = s.result := rfl
@[simp] theorem accept_status (i : Instr) (s : State) : (s.accept i).status = s.status := rfl
@[simp] theorem accept_cmds (i : Instr) (s : State) : (s.accept i).cmds = s.cmds := rfl
@[simp] theorem accept_peer (i : Instr) (s : State) : (s.accept i).peer = s.peer := rfl
@[simp] theorem accept_fifo (i : Instr) (s : State) : (s.accept i).fifo = s.fifo := rfl
@[simp] theorem accept_answers (i : Instr) (s : State) : (s.accept i).answers = s.answers := rfl
@[simp] theorem accept_draws (i : Instr) (s : State) : (s.accept i).draws = s.draws := rfl
@[simp] theorem accept_ioFails (i : Instr) (s : State) : (s.accept i).ioFails = s.ioFails := rfl
@[simp] theorem accept_log (i : Instr) (s : State) : (s.accept i).log = s.log := rfl
@[simp] theorem accept_reports (i : Instr) (s : State) : (s.accept i).reports = s.reports := rfl

/-! `takeVerdict` -/

@[simp] theorem takeVerdict_cfg  (s : State) : (s.takeVerdict).cfg = s.cfg := rfl
@[simp] theorem takeVerdict_clkOut  (s : State) : (s.takeVerdict).clkOut = s.clkOut := rfl
@[simp] theorem takeVerdict_ceOut  (s : State) : (s.takeVerdict).ceOut = s.ceOut := rfl
@[simp] theorem takeVerdict_datOut  (s : State) : (s.takeVerdict).datOut = s.datOut := rfl
@[simp] theorem takeVerdict_datOe  (s : State) : (s.takeVerdict).datOe = s.datOe := rfl
@[simp] theorem takeVerdict_active  (s : State) : (s.takeVerdict).active = s.active := rfl
@[simp] theorem takeVerdict_seq  (s : State) : (s.takeVerdict).seq = s.seq := rfl
@[simp] theorem takeVerdict_shreg  (s : State) : (s.takeVerdict).shreg = s.shreg := rfl
@[simp] theorem takeVerdict_bitcnt  (s : State) : (s.takeVerdict).bitcnt = s.bitcnt := rfl
@[simp] theorem takeVerdict_latch  (s : State) : (s.takeVerdict).latch = s.latch := rfl
@[simp] theorem takeVerdict_result  (s : State) : (s.takeVerdict).result = s.result := rfl
@[simp] theorem takeVerdict_status  (s : State) : (s.takeVerdict).status = s.status := rfl
@[simp] theorem takeVerdict_cmds  (s : State) : (s.takeVerdict).cmds = s.cmds := rfl
@[simp] theorem takeVerdict_peer  (s : State) : (s.takeVerdict).peer = s.peer := rfl
@[simp] theorem takeVerdict_fifo  (s : State) : (s.takeVerdict).fifo = s.fifo := rfl
@[simp] theorem takeVerdict_answers  (s : State) : (s.takeVerdict).answers = s.answers := rfl
@[simp] theorem takeVerdict_draws  (s : State) : (s.takeVerdict).draws = s.draws := rfl
@[simp] theorem takeVerdict_ioFails  (s : State) : (s.takeVerdict).ioFails = if s.cfg.pinIoCanFail then s.ioFails.tail else s.ioFails := rfl
@[simp] theorem takeVerdict_log  (s : State) : (s.takeVerdict).log = s.log := rfl
@[simp] theorem takeVerdict_reports  (s : State) : (s.takeVerdict).reports = s.reports := rfl

/-! `pinWrite` -/

@[simp] theorem pinWrite_cfg (p : Pin) (l : Level) (s : State) : (s.pinWrite p l).cfg = s.cfg := rfl
@[simp] theorem pinWrite_clkOut (p : Pin) (l : Level) (s : State) : (s.pinWrite p l).clkOut = if p = .clk then l else s.clkOut := rfl
@[simp] theorem pinWrite_ceOut (p : Pin) (l : Level) (s : State) : (s.pinWrite p l).ceOut = if p = .ce then l else s.ceOut := rfl
@[simp] theorem pinWrite_datOut (p : Pin) (l : Level) (s : State) : (s.pinWrite p l).datOut = if p = .dat then l else s.datOut := rfl
@[simp] theorem pinWrite_datOe (p : Pin) (l : Level) (s : State) : (s.pinWrite p l).datOe = if p = .dat then true else s.datOe := rfl
@[simp] theorem pinWrite_active (p : Pin) (l : Level) (s : State) : (s.pinWrite p l).active = s.active := rfl
@[simp] theorem pinWrite_seq (p : Pin) (l : Level) (s : State) : (s.pinWrite p l).seq = s.seq := rfl
@[simp] theorem pinWrite_shreg (p : Pin) (l : Level) (s : State) : (s.pinWrite p l).shreg = s.shreg := rfl
@[simp] theorem pinWrite_bitcnt (p : Pin) (l : Level) (s : State) : (s.pinWrite p l).bitcnt = s.bitcnt := rfl
@[simp] theorem pinWrite_latch (p : Pin) (l : Level) (s : State) : (s.pinWrite p l).latch = s.latch := rfl
@[simp] theorem pinWrite_result (p : Pin) (l : Level) (s : State) : (s.pinWrite p l).result = s.result := rfl
@[simp] theorem pinWrite_status (p : Pin) (l : Level) (s : State) : (s.pinWrite p l).status = s.status := rfl
@[simp] theorem pinWrite_cmds (p : Pin) (l : Level) (s : State) : (s.pinWrite p l).cmds = s.cmds := rfl
@[simp] theorem pinWrite_peer (p : Pin) (l : Level) (s : State) : (s.pinWrite p l).peer = s.peerAfterWrite p l := rfl
@[simp] theorem pinWrite_fifo (p : Pin) (l : Level) (s : State) : (s.pinWrite p l).fifo = s.fifoAfterWrite p l := rfl
@[simp] theorem pinWrite_answers (p : Pin) (l : Level) (s : State) : (s.pinWrite p l).answers = s.answers := rfl
@[simp] theorem pinWrite_draws (p : Pin) (l : Level) (s : State) : (s.pinWrite p l).draws = s.draws := rfl
@[simp] theorem pinWrite_ioFails (p : Pin) (l : Level) (s : State) : (s.pinWrite p l).ioFails = s.ioFails := rfl
@[simp] theorem pinWrite_log (p : Pin) (l : Level) (s : State) : (s.pinWrite p l).log = .w p l :: s.log := rfl
@[simp] theorem pinWrite_reports (p : Pin) (l : Level) (s : State) : (s.pinWrite p l).reports = s.reports := rfl

/-! `pinRead` -/

@[simp] theorem pinRead_cfg  (s : State) : (s.pinRead).cfg = s.cfg := rfl
@[simp] theorem pinRead_clkOut  (s : State) : (s.pinRead).clkOut = s.clkOut := rfl
@[simp] theorem pinRead_ceOut  (s : State) : (s.pinRead).ceOut = s.ceOut := rfl
@[simp] theorem pinRead_datOut  (s : State) : (s.pinRead).datOut = s.datOut := rfl
@[simp] theorem pinRead_datOe  (s : State) : (s.pinRead).datOe = false := rfl
@[simp] theorem pinRead_active  (s : State) : (s.pinRead).active = s.active := rfl
@[simp] theorem pinRead_seq  (s : State) : (s.pinRead).seq = s.seq := rfl
@[simp] theorem pinRead_shreg  (s : State) : (s.pinRead).shreg = s.shreg := rfl
@[simp] theorem pinRead_bitcnt  (s : State) : (s.pinRead).bitcnt = s.bitcnt := rfl
@[simp] theorem pinRead_latch  (s : State) : (s.pinRead).latch = s.latch := rfl
@[simp] theorem pinRead_result  (s : State) : (s.pinRead).result = s.result := rfl
@[simp] theorem pinRead_status  (s : State) : (s.pinRead).status = s.status := rfl
@[simp] theorem pinRead_cmds  (s : State) : (s.pinRead).cmds = s.cmds := rfl
@[simp] theorem pinRead_peer  (s : State) : (s.pinRead).peer = s.peerAfterRead := rfl
@[simp] theorem pinRead_fifo  (s : State) : (s.pinRead).fifo = s.fifo := rfl
@[simp] theorem pinRead_answers  (s : State) : (s.pinRead).answers = if s.fixtureLevel.isSome then s.answers else s.answers.tail := rfl
@[simp] theorem pinRead_draws  (s : State) : (s.pinRead).draws = if s.fixtureLevel.isNone && s.answers.isEmpty then s.draws + 1 else s.draws := rfl
@[simp] theorem pinRead_ioFails  (s : State) : (s.pinRead).ioFails = s.ioFails := rfl
@[simp] theorem pinRead_log  (s : State) : (s.pinRead).log = .r s.readLevel :: s.log := rfl
@[simp] theorem pinRead_reports  (s : State) : (s.pinRead).reports = s.reports := rfl

/-! `perform_ce` -/

@[simp] theorem perform_ce_cfg (l : Level) (s : State) : ((PinOp.ce l).perform s).cfg = s.cfg := rfl
@[simp] theorem perform_ce_clkOut (l : Level) (s : State) : ((PinOp.ce l).perform s).clkOut = s.clkOut := rfl
@[simp] theorem perform_ce_ceOut (l : Level) (s : State) : ((PinOp.ce l).perform s).ceOut = l := rfl
@[simp] theorem perform_ce_datOut (l : Level) (s : State) : ((PinOp.ce l).perform s).datOut = s.datOut := rfl
@[simp] theorem perform_ce_datOe (l : Level) (s : State) : ((PinOp.ce l).perform s).datOe = s.datOe := rfl
@[simp] theorem perform_ce_active (l : Level) (s : State) : ((PinOp.ce l).perform s).active = s.active := rfl
@[simp] theorem perform_ce_seq (l : Level) (s : State) : ((PinOp.ce l).perform s).seq = s.seq + 1 := rfl
@[simp] theorem perform_ce_shreg (l : Level) (s : State) : ((PinOp.ce l).perform s).shreg = s.shreg := rfl
@[simp] theorem perform_ce_bitcnt (l : Level) (s : State) : ((PinOp.ce l).perform s).bitcnt = s.bitcnt := rfl
@[simp] theorem perform_ce_latch (l : Level) (s : State) : ((PinOp.ce l).perform s).latch = s.latch := rfl
@[simp] theorem perform_ce_result (l : Level) (s : State) : ((PinOp.ce l).perform s).result = s.result := rfl
@[simp] theorem perform_ce_status (l : Level) (s : State) : ((PinOp.ce l).perform s).status = s.status := rfl
@[simp] theorem perform_ce_cmds (l : Level) (s : State) : ((PinOp.ce l).perform s).cmds = s.cmds := rfl
@[simp] theorem perform_ce_peer (l : Level) (s : State) : ((PinOp.ce l).perform s).peer = s.peerAfterWrite .ce l := rfl
@[simp] theorem perform_ce_fifo (l : Level) (s : State) : ((PinOp.ce l).perform s).fifo = s.fifoAfterWrite .ce l := rfl
@[simp] theorem perform_ce_answers (l : Level) (s : State) : ((PinOp.ce l).perform s).answers = s.answers := rfl
@[simp] theorem perform_ce_draws (l : Level) (s : State) : ((PinOp.ce l).perform s).draws = s.draws := rfl
@[simp] theorem perform_ce_ioFails (l : Level) (s : State) : ((PinOp.ce l).perform s).ioFails = s.ioFails := rfl
@[simp] theorem perform_ce_log (l : Level) (s : State) : ((PinOp.ce l).perform s).log = .w .ce l :: s.log := rfl
@[simp] theorem perform_ce_reports (l : Level) (s : State) : ((PinOp.ce l).perform s).reports = s.reports := rfl

/-! `perform_ceLatch` -/

@[simp] theorem perform_ceLatch_cfg  (s : State) : (PinOp.ceLatch.perform s).cfg = s.cfg := rfl
@[simp] theorem perform_ceLatch_clkOut  (s : State) : (PinOp.ceLatch.perform s).clkOut = s.clkOut := rfl
@[simp] theorem perform_ceLatch_ceOut  (s : State) : (PinOp.ceLatch.perform s).ceOut = false := rfl
@[simp] theorem perform_ceLatch_datOut  (s : State) : (PinOp.ceLatch.perform s).datOut = s.datOut := rfl
@[simp] theorem perform_ceLatch_datOe  (s : State) : (PinOp.ceLatch.perform s).datOe = s.datOe := rfl
@[simp] theorem perform_ceLatch_active  (s : State) : (PinOp.ceLatch.perform s).active = s.active := rfl
@[simp] theorem perform_ceLatch_seq  (s : State) : (PinOp.ceLatch.perform s).seq = s.seq + 1 := rfl
@[simp] theorem perform_ceLatch_shreg  (s : State) : (PinOp.ceLatch.perform s).shreg = s.shreg := rfl
@[simp] theorem perform_ceLatch_bitcnt  (s : State) : (PinOp.ceLatch.perform s).bitcnt = s.bitcnt := rfl
@[simp] theorem perform_ceLatch_latch  (s : State) : (PinOp.ceLatch.perform s).latch = s.shreg := rfl
@[simp] theorem perform_ceLatch_result  (s : State) : (PinOp.ceLatch.perform s).result = s.result := rfl
@[simp] theorem perform_ceLatch_status  (s : State) : (PinOp.ceLatch.perform s).status = s.status := rfl
@[simp] theorem perform_ceLatch_cmds  (s : State) : (PinOp.ceLatch.perform s).cmds = s.cmds := rfl
@[simp] theorem perform_ceLatch_peer  (s : State) : (PinOp.ceLatch.perform s).peer = s.peerAfterWrite .ce false := rfl
@[simp] theorem perform_ceLatch_fifo  (s : State) : (PinOp.ceLatch.perform s).fifo = s.fifoAfterWrite .ce false := rfl
@[simp] theorem perform_ceLatch_answers  (s : State) : (PinOp.ceLatch.perform s).answers = s.answers := rfl
@[simp] theorem perform_ceLatch_draws  (s : State) : (PinOp.ceLatch.perform s).draws = s.draws := rfl
@[simp] theorem perform_ceLatch_ioFails  (s : State) : (PinOp.ceLatch.perform s).ioFails = s.ioFails := rfl
@[simp] theorem perform_ceLatch_log  (s : State) : (PinOp.ceLatch.perform s).log = .w .ce false :: s.log := rfl
@[simp] theorem perform_ceLatch_reports  (s : State) : (PinOp.ceLatch.perform s).reports = s.reports := rfl

/-! `perform_clkHigh` -/

@[simp] theorem perform_clkHigh_cfg  (s : State) : (PinOp.clkHigh.perform s).cfg = s.cfg := rfl
@[simp] theorem perform_clkHigh_clkOut  (s : State) : (PinOp.clkHigh.perform s).clkOut = true := rfl
@[simp] theorem perform_clkHigh_ceOut  (s : State) : (PinOp.clkHigh.perform s).ceOut = s.ceOut := rfl
@[simp] theorem perform_clkHigh_datOut  (s : State) : (PinOp.clkHigh.perform s).datOut = s.datOut := rfl
@[simp] theorem perform_clkHigh_datOe  (s : State) : (PinOp.clkHigh.perform s).datOe = s.datOe := rfl
@[simp] theorem perform_clkHigh_active  (s : State) : (PinOp.clkHigh.perform s).active = s.active := rfl
@[simp] theorem perform_clkHigh_seq  (s : State) : (PinOp.clkHigh.perform s).seq = s.seq + 1 := rfl
@[simp] theorem perform_clkHigh_shreg  (s : State) : (PinOp.clkHigh.perform s).shreg = s.shreg := rfl
@[simp] theorem perform_clkHigh_bitcnt  (s : State) : (PinOp.clkHigh.perform s).bitcnt = s.bitcnt := rfl
@[simp] theorem perform_clkHigh_latch  (s : State) : (PinOp.clkHigh.perform s).latch = s.latch := rfl
@[simp] theorem perform_clkHigh_result  (s : State) : (PinOp.clkHigh.perform s).result = s.result := rfl
@[simp] theorem perform_clkHigh_status  (s : State) : (PinOp.clkHigh.perform s).status = s.status := rfl
@[simp] theorem perform_clkHigh_cmds  (s : State) : (PinOp.clkHigh.perform s).cmds = s.cmds := rfl
@[simp] theorem perform_clkHigh_peer  (s : State) : (PinOp.clkHigh.perform s).peer = s.peerAfterWrite .clk true := rfl
@[simp] theorem perform_clkHigh_fifo  (s : State) : (PinOp.clkHigh.perform s).fifo = s.fifoAfterWrite .clk true := rfl
@[simp] theorem perform_clkHigh_answers  (s : State) : (PinOp.clkHigh.perform s).answers = s.answers := rfl
@[simp] theorem perform_clkHigh_draws  (s : State) : (PinOp.clkHigh.perform s).draws = s.draws := rfl
@[simp] theorem perform_clkHigh_ioFails  (s : State) : (PinOp.clkHigh.perform s).ioFails = s.ioFails := rfl
@[simp] theorem perform_clkHigh_log  (s : State) : (PinOp.clkHigh.perform s).log = .w .clk true :: s.log := rfl
@[simp] theorem perform_clkHigh_reports  (s : State) : (PinOp.clkHigh.perform s).reports = s.reports := rfl

/-! `perform_clkLow` -/

@[simp] theorem perform_clkLow_cfg  (s : State) : (PinOp.clkLow.perform s).cfg = s.cfg := rfl
@[simp] theorem perform_clkLow_clkOut  (s : State) : (PinOp.clkLow.perform s).clkOut = false := rfl
@[simp] theorem perform_clkLow_ceOut  (s : State) : (PinOp.clkLow.perform s).ceOut = s.ceOut := rfl
@[simp] theorem perform_clkLow_datOut  (s : State) : (PinOp.clkLow.perform s).datOut = s.datOut := rfl
@[simp] theorem perform_clkLow_datOe  (s : State) : (PinOp.clkLow.perform s).datOe = s.datOe := rfl
@[simp] theorem perform_clkLow_active  (s : State) : (PinOp.clkLow.perform s).active = s.active := rfl
@[simp] theorem perform_clkLow_seq  (s : State) : (PinOp.clkLow.perform s).seq = s.seq + 1 := rfl
@[simp] theorem perform_clkLow_shreg  (s : State) : (PinOp.clkLow.perform s).shreg = s.shreg := rfl
@[simp] theorem perform_clkLow_bitcnt  (s : State) : (PinOp.clkLow.perform s).bitcnt = s.bitcnt + 1 := rfl
@[simp] theorem perform_clkLow_latch  (s : State) : (PinOp.clkLow.perform s).latch = s.latch := rfl
@[simp] theorem perform_clkLow_result  (s : State) : (PinOp.clkLow.perform s).result = s.result := rfl
@[simp] theorem perform_clkLow_status  (s : State) : (PinOp.clkLow.perform s).status = s.status := rfl
@[simp] theorem perform_clkLow_cmds  (s : State) : (PinOp.clkLow.perform s).cmds = s.cmds := rfl
@[simp] theorem perform_clkLow_peer  (s : State) : (PinOp.clkLow.perform s).peer = s.peerAfterWrite .clk false := rfl
@[simp] theorem perform_clkLow_fifo  (s : State) : (PinOp.clkLow.perform s).fifo = s.fifoAfterWrite .clk false := rfl
@[simp] theorem perform_clkLow_answers  (s : State) : (PinOp.clkLow.perform s).answers = s.answers := rfl
@[simp] theorem perform_clkLow_draws  (s : State) : (PinOp.clkLow.perform s).draws = s.draws := rfl
@[simp] theorem perform_clkLow_ioFails  (s : State) : (PinOp.clkLow.perform s).ioFails = s.ioFails := rfl
@[simp] theorem perform_clkLow_log  (s : State) : (PinOp.clkLow.perform s).log = .w .clk false :: s.log := rfl
@[simp] theorem perform_clkLow_reports  (s : State) : (PinOp.clkLow.perform s).reports = s.reports := rfl

/-! `perform_drive` -/

@[simp] theorem perform_drive_cfg (src : ByteSrc) (k : Nat) (s : State) : ((PinOp.drive src k).perform s).cfg = s.cfg := rfl
@[simp] theorem perform_drive_clkOut (src : ByteSrc) (k : Nat) (s : State) : ((PinOp.drive src k).perform s).clkOut = s.clkOut := rfl
@[simp] theorem perform_drive_ceOut (src : ByteSrc) (k : Nat) (s : State) : ((PinOp.drive src k).perform s).ceOut = s.ceOut := rfl
@[simp] theorem perform_drive_datOut (src : ByteSrc) (k : Nat) (s : State) : ((PinOp.drive src k).perform s).datOut = ((s.sendReg src k).getLsbD k) := rfl
@[simp] theorem perform_drive_datOe (src : ByteSrc) (k : Nat) (s : State) : ((PinOp.drive src k).perform s).datOe = true := rfl
@[simp] theorem perform_drive_active (src : ByteSrc) (k : Nat) (s : State) : ((PinOp.drive src k).perform s).active = s.active := rfl
@[simp] theorem perform_drive_seq (src : ByteSrc) (k : Nat) (s : State) : ((PinOp.drive src k).perform s).seq = s.seq + 1 := rfl
@[simp] theorem perform_drive_shreg (src : ByteSrc) (k : Nat) (s : State) : ((PinOp.drive src k).perform s).shreg = s.sendReg src k := rfl
@[simp] theorem perform_drive_bitcnt (src : ByteSrc) (k : Nat) (s : State) : ((PinOp.drive src k).perform s).bitcnt = BitVec.ofNat 4 k := rfl
@[simp] theorem perform_drive_latch (src : ByteSrc) (k : Nat) (s : State) : ((PinOp.drive src k).perform s).latch = s.latch := rfl
@[simp] theorem perform_drive_result (src : ByteSrc) (k : Nat) (s : State) : ((PinOp.drive src k).perform s).result = s.result := rfl
@[simp] theorem perform_drive_status (src : ByteSrc) (k : Nat) (s : State) : ((PinOp.drive src k).perform s).status = s.status := rfl
@[simp] theorem perform_drive_cmds (src : ByteSrc) (k : Nat) (s : State) : ((PinOp.drive src k).perform s).cmds = s.cmds := rfl
@[simp] theorem perform_drive_peer (src : ByteSrc) (k : Nat) (s : State) : ((PinOp.drive src k).perform s).peer = s.peerAfterWrite .dat ((s.sendReg src k).getLsbD k) := rfl
@[simp] theorem perform_drive_fifo (src : ByteSrc) (k : Nat) (s : State) : ((PinOp.drive src k).perform s).fifo = s.fifoAfterWrite .dat ((s.sendReg src k).getLsbD k) := rfl
@[simp] theorem perform_drive_answers (src : ByteSrc) (k : Nat) (s : State) : ((PinOp.drive src k).perform s).answers = s.answers := rfl
@[simp] theorem perform_drive_draws (src : ByteSrc) (k : Nat) (s : State) : ((PinOp.drive src k).perform s).draws = s.draws := rfl
@[simp] theorem perform_drive_ioFails (src : ByteSrc) (k : Nat) (s : State) : ((PinOp.drive src k).perform s).ioFails = s.ioFails := rfl
@[simp] theorem perform_drive_log (src : ByteSrc) (k : Nat) (s : State) : ((PinOp.drive src k).perform s).log = .w .dat ((s.sendReg src k).getLsbD k) :: s.log := rfl
@[simp] theorem perform_drive_reports (src : ByteSrc) (k : Nat) (s : State) : ((PinOp.drive src k).perform s).reports = s.reports := rfl

/-! `perform_sample` -/

@[simp] theorem perform_sample_cfg (k : Nat) (s : State) : ((PinOp.sample k).perform s).cfg = s.cfg := rfl
@[simp] theorem perform_sample_clkOut (k : Nat) (s : State) : ((PinOp.sample k).perform s).clkOut = s.clkOut := rfl
@[simp] theorem perform_sample_ceOut (k : Nat) (s : State) : ((PinOp.sample k).perform s).ceOut = s.ceOut := rfl
@[simp] theorem perform_sample_datOut (k : Nat) (s : State) : ((PinOp.sample k).perform s).datOut = s.datOut := rfl
@[simp] theorem perform_sample_datOe (k : Nat) (s : State) : ((PinOp.sample k).perform s).datOe = false := rfl
@[simp] theorem perform_sample_active (k : Nat) (s : State) : ((PinOp.sample k).perform s).active = s.active := rfl
@[simp] theorem perform_sample_seq (k : Nat) (s : State) : ((PinOp.sample k).perform s).seq = s.seq + 1 := rfl
@[simp] theorem perform_sample_shreg (k : Nat) (s : State) : ((PinOp.sample k).perform s).shreg = s.receiveReg k ||| levelAt s.readLevel k := rfl
@[simp] theorem perform_sample_bitcnt (k : Nat) (s : State) : ((PinOp.sample k).perform s).bitcnt = BitVec.ofNat 4 k := rfl
@[simp] theorem perform_sample_latch (k : Nat) (s : State) : ((PinOp.sample k).perform s).latch = s.latch := rfl
@[simp] theorem perform_sample_result (k : Nat) (s : State) : ((PinOp.sample k).perform s).result = s.result := rfl
@[simp] theorem perform_sample_status (k : Nat) (s : State) : ((PinOp.sample k).perform s).status = s.status := rfl
@[simp] theorem perform_sample_cmds (k : Nat) (s : State) : ((PinOp.sample k).perform s).cmds = s.cmds := rfl
@[simp] theorem perform_sample_peer (k : Nat) (s : State) : ((PinOp.sample k).perform s).peer = s.peerAfterRead := rfl
@[simp] theorem perform_sample_fifo (k : Nat) (s : State) : ((PinOp.sample k).perform s).fifo = s.fifo := rfl
@[simp] theorem perform_sample_answers (k : Nat) (s : State) : ((PinOp.sample k).perform s).answers = if s.fixtureLevel.isSome then s.answers else s.answers.tail := rfl
@[simp] theorem perform_sample_draws (k : Nat) (s : State) : ((PinOp.sample k).perform s).draws = if s.fixtureLevel.isNone && s.answers.isEmpty then s.draws + 1 else s.draws := rfl
@[simp] theorem perform_sample_ioFails (k : Nat) (s : State) : ((PinOp.sample k).perform s).ioFails = s.ioFails := rfl
@[simp] theorem perform_sample_log (k : Nat) (s : State) : ((PinOp.sample k).perform s).log = .r s.readLevel :: s.log := rfl
@[simp] theorem perform_sample_reports (k : Nat) (s : State) : ((PinOp.sample k).perform s).reports = s.reports := rfl

/-! What no pin operation changes. -/

@[simp] theorem perform_cfg (op : PinOp) (s : State) : (op.perform s).cfg = s.cfg := by cases op <;> rfl
@[simp] theorem perform_active (op : PinOp) (s : State) : (op.perform s).active = s.active := by cases op <;> rfl
@[simp] theorem perform_result (op : PinOp) (s : State) : (op.perform s).result = s.result := by cases op <;> rfl
@[simp] theorem perform_status (op : PinOp) (s : State) : (op.perform s).status = s.status := by cases op <;> rfl
@[simp] theorem perform_cmds (op : PinOp) (s : State) : (op.perform s).cmds = s.cmds := by cases op <;> rfl
@[simp] theorem perform_ioFails (op : PinOp) (s : State) : (op.perform s).ioFails = s.ioFails := by cases op <;> rfl
@[simp] theorem perform_reports (op : PinOp) (s : State) : (op.perform s).reports = s.reports := by cases op <;> rfl
@[simp] theorem perform_seq (op : PinOp) (s : State) : (op.perform s).seq = s.seq + 1 := by cases op <;> rfl

end Sys2Proof.Machine
end

