-- ==== Sys2Proof/Laws/Create.lean ====
section
/-!
SUPPORT. What construction can do (spec/70_reset_and_hazards.md R160, R164, spec/60_exceptions.md R153).
-/
namespace Sys2Proof.Machine

/-- Two bindings share a pin exactly when some pin of the one is a pin of the other. -/
theorem Pins.overlap_iff (p q : Pins) :
    p.overlap q = true ↔ ∃ x ∈ [p.clk, p.dat, p.ce], x = q.clk ∨ x = q.dat ∨ x = q.ce := by
  simp only [Pins.overlap, List.any_eq_true, Bool.or_eq_true, beq_iff_eq, or_assoc]

@[simp] theorem heldPins_idle (others : List Pins) {s : State} (h : s.busy = false) : s.heldPins others = others := by
  simp [State.heldPins, h]

@[simp] theorem heldPins_busy (others : List Pins) {s : State} (h : s.busy = true) :
    s.heldPins others = s.cfg.pins :: others := by
  simp [State.heldPins, h]

/-- Construction on equal identifiers, and on a held pin, is refused; otherwise it answers an idle engine. -/
theorem create_cases (others : List Pins) (c d e : Nat) (s : State) :
    ((c = d ∨ c = e ∨ d = e) ∧ create others c d e s = .refused .pinsNotDistinct) ∨
    (∃ h, (∃ p ∈ s.heldPins others, Pins.overlap ⟨c, d, e, h⟩ p = true) ∧ create others c d e s = .refused .pinsShared) ∨
    (∃ h t, (∀ p ∈ s.heldPins others, Pins.overlap ⟨c, d, e, h⟩ p = false) ∧ create others c d e s = .next t ∧
      t.active = none ∧ t.cfg = { s.cfg with pins := ⟨c, d, e, h⟩ }) := by
  by_cases h : (c != d && c != e && d != e) = true
  · by_cases ho : (s.heldPins others).any (Pins.overlap ⟨c, d, e, h⟩) = true
    · refine .inr (.inl ⟨h, by simpa using ho, ?_⟩)
      exact (dif_pos h).trans (if_pos ho)
    · have free : ∀ p ∈ s.heldPins others, Pins.overlap ⟨c, d, e, h⟩ p = false := by simpa using ho
      exact .inr (.inr ⟨h, _, free, (dif_pos h).trans (if_neg ho), rfl, rfl⟩)
  · refine .inl ⟨?_, dif_neg h⟩
    by_contra hn
    exact h (by simpa [not_or, and_assoc] using hn)

end Sys2Proof.Machine
end

