-- ==== Sys2Proof/Laws/Decode.lean ====
section
/-!
SUPPORT. The fields of a packed descriptor (spec/30_encoding.md R60), the opcode map in both directions (R62) and what selects a row (R63).
-/
namespace Sys2Proof

/-! ### Fields of a packed descriptor -/

@[simp] theorem opField_pack (op a : Byte) (v0 v1 v2 v3 v4 v5 v6 : Nat) : opField (pack op a v0 v1 v2 v3 v4 v5 v6) = op := by
  refine BitVec.eq_of_getLsbD_eq fun k hk => ?_
  simp only [opField, pack, BitVec.getLsbD_extractLsb', BitVec.getLsbD_append]
  interval_cases k <;> simp

@[simp] theorem aField_pack (op a : Byte) (v0 v1 v2 v3 v4 v5 v6 : Nat) : aField (pack op a v0 v1 v2 v3 v4 v5 v6) = a := by
  refine BitVec.eq_of_getLsbD_eq fun k hk => ?_
  simp only [aField, pack, BitVec.getLsbD_extractLsb', BitVec.getLsbD_append]
  interval_cases k <;> simp

@[simp] theorem vField0_pack (op a : Byte) (v0 v1 v2 v3 v4 v5 v6 : Nat) :
    vField 0 (pack op a v0 v1 v2 v3 v4 v5 v6) = BitVec.ofNat 16 v0 := by
  refine BitVec.eq_of_getLsbD_eq fun k hk => ?_
  simp only [vField, pack, BitVec.getLsbD_extractLsb', BitVec.getLsbD_append]
  interval_cases k <;> simp

@[simp] theorem vField1_pack (op a : Byte) (v0 v1 v2 v3 v4 v5 v6 : Nat) :
    vField 1 (pack op a v0 v1 v2 v3 v4 v5 v6) = BitVec.ofNat 16 v1 := by
  refine BitVec.eq_of_getLsbD_eq fun k hk => ?_
  simp only [vField, pack, BitVec.getLsbD_extractLsb', BitVec.getLsbD_append]
  interval_cases k <;> simp

@[simp] theorem vField2_pack (op a : Byte) (v0 v1 v2 v3 v4 v5 v6 : Nat) :
    vField 2 (pack op a v0 v1 v2 v3 v4 v5 v6) = BitVec.ofNat 16 v2 := by
  refine BitVec.eq_of_getLsbD_eq fun k hk => ?_
  simp only [vField, pack, BitVec.getLsbD_extractLsb', BitVec.getLsbD_append]
  interval_cases k <;> simp

@[simp] theorem vField3_pack (op a : Byte) (v0 v1 v2 v3 v4 v5 v6 : Nat) :
    vField 3 (pack op a v0 v1 v2 v3 v4 v5 v6) = BitVec.ofNat 16 v3 := by
  refine BitVec.eq_of_getLsbD_eq fun k hk => ?_
  simp only [vField, pack, BitVec.getLsbD_extractLsb', BitVec.getLsbD_append]
  interval_cases k <;> simp

@[simp] theorem vField4_pack (op a : Byte) (v0 v1 v2 v3 v4 v5 v6 : Nat) :
    vField 4 (pack op a v0 v1 v2 v3 v4 v5 v6) = BitVec.ofNat 16 v4 := by
  refine BitVec.eq_of_getLsbD_eq fun k hk => ?_
  simp only [vField, pack, BitVec.getLsbD_extractLsb', BitVec.getLsbD_append]
  interval_cases k <;> simp

@[simp] theorem vField5_pack (op a : Byte) (v0 v1 v2 v3 v4 v5 v6 : Nat) :
    vField 5 (pack op a v0 v1 v2 v3 v4 v5 v6) = BitVec.ofNat 16 v5 := by
  refine BitVec.eq_of_getLsbD_eq fun k hk => ?_
  simp only [vField, pack, BitVec.getLsbD_extractLsb', BitVec.getLsbD_append]
  interval_cases k <;> simp

@[simp] theorem vField6_pack (op a : Byte) (v0 v1 v2 v3 v4 v5 v6 : Nat) :
    vField 6 (pack op a v0 v1 v2 v3 v4 v5 v6) = BitVec.ofNat 16 v6 := by
  refine BitVec.eq_of_getLsbD_eq fun k hk => ?_
  simp only [vField, pack, BitVec.getLsbD_extractLsb', BitVec.getLsbD_append]
  interval_cases k <;> simp

@[simp] theorem opField_packValue (o : Opcode) (v : Nat) : opField (packValue o v) = o.code := by simp [packValue]
@[simp] theorem opField_packBare (o : Opcode) : opField (packBare o) = o.code := by simp [packBare]
@[simp] theorem vField0_packValue (o : Opcode) (v : Nat) : vField 0 (packValue o v) = BitVec.ofNat 16 v := by
  simp [packValue]

/-! ### The opcode map -/

@[simp] theorem Opcode.ofCode_code (o : Opcode) : Opcode.ofCode o.code = some o := by cases o <;> rfl

theorem Opcode.code_of_ofCode {c : Byte} {o : Opcode} (h : Opcode.ofCode c = some o) : o.code = c := by
  simpa using List.find?_some h

/-- An `op` that is no command's is not assigned. -/
theorem Opcode.ofCode_none {c : Byte} (h : ∀ o : Opcode, o.code ≠ c) : Opcode.ofCode c = none := by
  simp [Opcode.ofCode]
  exact fun o _ => h o

/-- `match` and `mask` select a row exactly when the field `op` is its opcode (R63). -/
theorem Opcode.selects_iff (o : Opcode) (d : Descriptor) : o.selects d = true ↔ opField d = o.code := by
  have masked : d &&& opMask = ((opField d).setWidth 128) <<< 120 := by
    refine BitVec.eq_of_getLsbD_eq fun k hk => ?_
    simp only [opField, opMask, BitVec.getLsbD_and, BitVec.getLsbD_shiftLeft, BitVec.getLsbD_setWidth,
      BitVec.getLsbD_extractLsb']
    by_cases h : k < 120
    · simp [h]
    · obtain ⟨j, rfl⟩ : ∃ j, k = 120 + j := ⟨k - 120, by omega⟩
      have hj : j < 8 := by omega
      interval_cases j <;> simp
  have beq : o.selects d = true ↔ d &&& opMask = o.pattern := by simp [Opcode.selects]
  rw [beq, masked, Opcode.pattern]
  refine ⟨fun h => BitVec.eq_of_getLsbD_eq fun k hk => ?_, fun h => by rw [h]⟩
  have hb := congrArg (fun x => x.getLsbD (120 + k)) h
  simp only [BitVec.getLsbD_shiftLeft, BitVec.getLsbD_setWidth] at hb
  interval_cases k <;> simpa using hb

/-- The operands decoded for an opcode make a command of that opcode. -/
@[simp] theorem operandsOf_opcode (o : Opcode) (d : Descriptor) : (operandsOf o d).opcode = o := by cases o <;> rfl

end Sys2Proof
end

