-- ==== Sys2Proof/Laws/Run.lean ====
section
/-!
SUPPORT. What a run of pin operations can do: one lemma for the reliable run, one for what every run leaves alone, and the meaning of every
command as one issue of its plan.
-/
namespace Sys2Proof.Machine

/-- The pin operations one after another when none can fail. -/
def performAll (ops : List PinOp) (s : State) : State := ops.foldl (fun s op => op.perform s) s

@[simp] theorem performAll_nil (s : State) : performAll [] s = s := rfl

@[simp] theorem performAll_cons (op : PinOp) (ops : List PinOp) (s : State) :
    performAll (op :: ops) s = performAll ops (op.perform s) := rfl

@[simp] theorem performAll_append (ops ops' : List PinOp) (s : State) :
    performAll (ops ++ ops') s = performAll ops' (performAll ops s) := List.foldl_append

/-- A property of every single operation holds of a run. -/
theorem performAll_induct {P : State → State → Prop} (refl : ∀ s, P s s) (trans : ∀ s t u, P s t → P t u → P s u)
    (one : ∀ op s, P s (PinOp.perform op s)) (ops : List PinOp) (s : State) : P s (performAll ops s) := by
  induction ops generalizing s with
  | nil => exact refl s
  | cons op ops ih => exact trans _ _ _ (one op s) (ih _)

@[simp] theorem performAll_cfg (ops : List PinOp) (s : State) : (performAll ops s).cfg = s.cfg :=
  performAll_induct (P := fun s t => t.cfg = s.cfg) (fun _ => rfl) (fun _ _ _ h k => k.trans h) (by simp) ops s

@[simp] theorem performAll_active (ops : List PinOp) (s : State) : (performAll ops s).active = s.active :=
  performAll_induct (P := fun s t => t.active = s.active) (fun _ => rfl) (fun _ _ _ h k => k.trans h) (by simp) ops s

@[simp] theorem performAll_result (ops : List PinOp) (s : State) : (performAll ops s).result = s.result :=
  performAll_induct (P := fun s t => t.result = s.result) (fun _ => rfl) (fun _ _ _ h k => k.trans h) (by simp) ops s

@[simp] theorem performAll_status (ops : List PinOp) (s : State) : (performAll ops s).status = s.status :=
  performAll_induct (P := fun s t => t.status = s.status) (fun _ => rfl) (fun _ _ _ h k => k.trans h) (by simp) ops s

@[simp] theorem performAll_cmds (ops : List PinOp) (s : State) : (performAll ops s).cmds = s.cmds :=
  performAll_induct (P := fun s t => t.cmds = s.cmds) (fun _ => rfl) (fun _ _ _ h k => k.trans h) (by simp) ops s

@[simp] theorem performAll_ioFails (ops : List PinOp) (s : State) : (performAll ops s).ioFails = s.ioFails :=
  performAll_induct (P := fun s t => t.ioFails = s.ioFails) (fun _ => rfl) (fun _ _ _ h k => k.trans h) (by simp) ops s

@[simp] theorem performAll_reports (ops : List PinOp) (s : State) : (performAll ops s).reports = s.reports :=
  performAll_induct (P := fun s t => t.reports = s.reports) (fun _ => rfl) (fun _ _ _ h k => k.trans h) (by simp) ops s

@[simp] theorem performAll_seq (ops : List PinOp) (s : State) : (performAll ops s).seq = s.seq + ops.length := by
  induction ops generalizing s with
  | nil => rfl
  | cons op ops ih => simp [ih]; omega

/-- A run that cannot fail performs every operation. -/
theorem runOps_reliable (ops : List PinOp) (s : State) (h : s.cfg.pinIoCanFail = false) :
    runOps ops s = .completed (performAll ops s) := by
  have key : ∀ u : State, u.cfg.pinIoCanFail = false → u.nextFails = false ∧ u.takeVerdict = u := by
    intro u hu; simp [State.nextFails, State.takeVerdict, hu]
  induction ops generalizing s with
  | nil => rfl
  | cons op ops ih =>
    simp only [runOps, key s h, Bool.false_eq_true, if_false, performAll_cons]
    exact ih _ (by simpa using h)

/-- Every meaning is one issue of its command's plan. -/
theorem exec_eq_issue (i : Instr) (s : State) : exec i s = issue i (planOf i) s := by cases i <;> rfl

/-- An idle, reliable engine carries a command out to its end. -/
theorem exec_reliable (i : Instr) (s : State) (idle : s.active = none) (h : s.cfg.pinIoCanFail = false) :
    exec i s = .next (finish (planOf i).ending (performAll (planOf i).ops (s.accept i))) := by
  simp [exec_eq_issue, issue, State.busy, idle, runPlan, runOps_reliable _ _ (by simpa using h : (s.accept i).cfg.pinIoCanFail = false)]

/-- An idle engine answers a next state, whatever the pin operations do. -/
theorem exec_idle (i : Instr) (s : State) (idle : s.active = none) : exec i s = .next (runPlan (planOf i) (s.accept i)) := by
  simp [exec_eq_issue, issue, State.busy, idle]

/-- A busy engine accepts nothing. -/
theorem exec_busy (i : Instr) (s : State) (h : s.busy = true) : exec i s = .fault .portBusy := by
  simp [exec_eq_issue, issue, h]

/-- A run to its end or to its first failure: a prefix of the operations is performed, verdicts aside. Any relation that holds across
taking a verdict and across every performed operation holds across the run. -/
theorem runOps_induct {P : State → State → Prop} (refl : ∀ s, P s s) (trans : ∀ s t u, P s t → P t u → P s u)
    (verdict : ∀ s : State, P s s.takeVerdict) (one : ∀ op s, P s (PinOp.perform op s)) (ops : List PinOp) (s : State) :
    ∀ t, (runOps ops s = .completed t ∨ runOps ops s = .failed t) → P s t := by
  induction ops generalizing s with
  | nil => rintro t (h | h) <;> cases h; exact refl s
  | cons op ops ih =>
    intro t h
    unfold runOps at h
    split at h
    · rcases h with h | h <;> cases h; exact verdict s
    · exact trans _ _ _ (trans _ _ _ (verdict s) (one op _)) (ih _ t h)

/-- A relation that holds across verdicts, performed operations, the cleanup write and the end of a command holds across a whole command. -/
theorem runPlan_induct {P : State → State → Prop} (refl : ∀ s, P s s) (trans : ∀ s t u, P s t → P t u → P s u)
    (verdict : ∀ s : State, P s s.takeVerdict) (one : ∀ op s, P s (PinOp.perform op s))
    (cleanup : ∀ s : State, P s (s.pinWrite .ce false)) (ending : ∀ st r (s : State), P s (s.endWith st r))
    (p : Plan) (s : State) : P s (runPlan p s) := by
  unfold runPlan
  have run := runOps_induct refl trans verdict one (p.ops.drop s.seq) s
  split
  · rename_i t ht
    refine trans _ _ _ (run t (.inl ht)) ?_
    cases he : p.ending <;> simp only [finish]
    case toBcd v => split <;> exact ending _ _ _
    all_goals exact ending _ _ _
  · rename_i t ht
    refine trans _ _ _ (run t (.inr ht)) (trans _ _ _ ?_ (ending _ _ _))
    split
    · exact verdict t
    · exact trans _ _ _ (verdict t) (cleanup _)

end Sys2Proof.Machine
end

