-- ==== Sys2Proof/Laws/Wire.lean ====
section
/-!
SUPPORT. What one byte and one frame do to the engine: its pins, its working registers and the trace. Nothing here depends on who answers.
-/
namespace Sys2Proof.Machine

/-- What `t` has of `s` after the byte `b` was sent (R80). -/
structure Sent (b : Byte) (s t : State) : Prop where
  clk : t.clkOut = false
  ce : t.ceOut = s.ceOut
  dat : t.datOut = b.getLsbD 7
  oe : t.datOe = true
  shreg : t.shreg = b
  bitcnt : t.bitcnt = 8
  latch : t.latch = s.latch
  answers : t.answers = s.answers
  draws : t.draws = s.draws
  log : t.log = (txEvents b).reverse ++ s.log

theorem sendByte_spec (src : ByteSrc) (s : State) : Sent (src.value s) s (performAll (sendByte src) s) := by
  constructor <;>
    simp [sendByte, sendBit, bitOrder, State.sendReg, txEvents, pulseEvents]

/-- What `t` has of `s` after the byte `r` was received (R81). -/
structure Received (r : Byte) (s t : State) : Prop where
  clk : t.clkOut = false
  ce : t.ceOut = s.ceOut
  dat : t.datOut = s.datOut
  oe : t.datOe = false
  shreg : t.shreg = r
  bitcnt : t.bitcnt = 8
  latch : t.latch = s.latch
  log : t.log = (rxEvents r).reverse ++ s.log

/-- The state in which bit `k` of a byte is sampled, the bits before it received. -/
def beforeBit (k : Nat) (s : State) : State := performAll ((List.range k).flatMap receiveBit) s

theorem beforeBit_succ (k : Nat) (s : State) : beforeBit (k + 1) s = performAll (receiveBit k) (beforeBit k s) := by
  simp [beforeBit, List.range_succ]

/-- The byte that RDBYTE assembles from a state on: bit `k` is the `k`-th level read (R81). -/
def receivedByte (s : State) : Byte := byteOf fun k => (beforeBit k s).readLevel

/-- The bits of an assembled byte are the levels it was assembled from. -/
theorem byteOf_bit (f : Nat → Level) {k : Nat} (hk : k < 8) : (byteOf f).getLsbD k = f k := by
  have all : ∀ a0 a1 a2 a3 a4 a5 a6 a7 : Bool, ∀ k : Fin 8,
      (levelAt a0 0 ||| levelAt a1 1 ||| levelAt a2 2 ||| levelAt a3 3 ||| levelAt a4 4 ||| levelAt a5 5 |||
        levelAt a6 6 ||| levelAt a7 7).getLsbD k = [a0, a1, a2, a3, a4, a5, a6, a7][k] := by decide
  have h := all (f 0) (f 1) (f 2) (f 3) (f 4) (f 5) (f 6) (f 7) ⟨k, hk⟩
  unfold byteOf
  rw [h]
  interval_cases k <;> rfl

/-- A byte is assembled from its own bits. -/
theorem byteOf_bits (b : Byte) : (byteOf fun k => b.getLsbD k) = b := by
  refine BitVec.eq_of_getLsbD_eq fun k hk => ?_
  exact byteOf_bit _ hk

theorem receiveByte_spec (s : State) : Received (receivedByte s) s (performAll receiveByte s) := by
  have hr : ∀ k < 8, (receivedByte s).getLsbD k = (beforeBit k s).readLevel := fun k hk => byteOf_bit _ hk
  have h0 := hr 0 (by omega)
  have h1 := hr 1 (by omega)
  have h2 := hr 2 (by omega)
  have h3 := hr 3 (by omega)
  have h4 := hr 4 (by omega)
  have h5 := hr 5 (by omega)
  have h6 := hr 6 (by omega)
  have h7 := hr 7 (by omega)
  constructor
  case shreg => simp [receiveByte, receiveBit, bitOrder, State.receiveReg, receivedByte, byteOf, beforeBit, List.range_succ]
  case log =>
    simp only [rxEvents, List.flatMap_cons, List.flatMap_nil, h0, h1, h2, h3, h4, h5, h6, h7]
    simp [receiveByte, receiveBit, bitOrder, beforeBit, List.range_succ, pulseEvents]
  all_goals simp [receiveByte, receiveBit, bitOrder]

/-! ### Lengths (R64) -/

@[simp] theorem sendByte_length (src : ByteSrc) : (sendByte src).length = 24 := rfl
@[simp] theorem receiveByte_length : receiveByte.length = 24 := rfl
@[simp] theorem readOps_length (a : Byte) : (readOps a).length = 50 := rfl
@[simp] theorem readLatchOps_length (a : Byte) : (readLatchOps a).length = 50 := rfl
@[simp] theorem writeOps_length (a : Byte) (src : ByteSrc) : (writeOps a src).length = 50 := rfl
@[simp] theorem protectedOps_length (a : Byte) (src : ByteSrc) : (protectedOps a src).length = 150 := by
  simp [protectedOps, disableOps]
@[simp] theorem setOps_length (f : Field) (v : Nat) : (setOps f v).length = 150 := by simp [setOps]

/-- A command has as many pin operations as its trace has events. -/
theorem planOf_length (i : Instr) : (planOf i).ops.length = eventCount i := by
  cases i <;> simp [planOf, eventCount, planD2b, planB2d, planWrbyte, planRdbyte, planRdreg, planWrreg, planPwrreg, planSetyear,
    planSetmonth, planSetday, planSethour, planSetmin, planSetsec, planSetwday, planSet, planGetyear, planGetmonth, planGetday,
    planGethour, planGetmin, planGetsec, planGetwday, planGet, planStart, planPause, planRdram, planWrram, planSetdatetime]

/-! ### Frames -/

/-- What `t` has of `s` after frames of which the last sent the data byte `v` (R91). -/
structure WroteFrames (fs : List Frame) (v : Byte) (s t : State) : Prop where
  clk : t.clkOut = false
  ce : t.ceOut = false
  dat : t.datOut = v.getLsbD 7
  oe : t.datOe = true
  shreg : t.shreg = v
  bitcnt : t.bitcnt = 8
  latch : t.latch = s.latch
  answers : t.answers = s.answers
  draws : t.draws = s.draws
  log : t.log = (framesEvents fs).reverse ++ s.log

/-- Frames after frames. -/
theorem WroteFrames.append {fs gs : List Frame} {v w : Byte} {s t u : State} (h : WroteFrames fs v s t)
    (k : WroteFrames gs w t u) : WroteFrames (fs ++ gs) w s u where
  clk := k.clk
  ce := k.ce
  dat := k.dat
  oe := k.oe
  shreg := k.shreg
  bitcnt := k.bitcnt
  latch := k.latch.trans h.latch
  answers := k.answers.trans h.answers
  draws := k.draws.trans h.draws
  log := by rw [k.log, h.log]; simp [framesEvents]

/-- The byte to send depends on the state only through `LATCH`. -/
theorem value_of_latch (src : ByteSrc) {s t : State} (h : t.latch = s.latch) : src.value t = src.value s := by
  cases src <;> simp [ByteSrc.value, h]

/-- A write frame (R91). -/
theorem writeOps_spec (a : Byte) (src : ByteSrc) (s : State) :
    WroteFrames [.write a (src.value s)] (src.value s) s (performAll (writeOps a src) s) := by
  obtain ⟨s1, hs1⟩ : ∃ s1, s1 = (PinOp.ce true).perform s := ⟨_, rfl⟩
  obtain ⟨s2, hs2⟩ : ∃ s2, s2 = performAll (sendByte (.lit a)) s1 := ⟨_, rfl⟩
  obtain ⟨s3, hs3⟩ : ∃ s3, s3 = performAll (sendByte src) s2 := ⟨_, rfl⟩
  have run : performAll (writeOps a src) s = (PinOp.ce false).perform s3 := by
    rw [hs3, hs2, hs1]; simp [writeOps]
  have h2 : Sent a s1 s2 := hs2 ▸ sendByte_spec (.lit a) s1
  have h3 : Sent (src.value s2) s2 s3 := hs3 ▸ sendByte_spec src s2
  rw [value_of_latch src (s := s) (by rw [h2.latch, hs1]; simp)] at h3
  rw [run]
  constructor <;> simp [h3.clk, h3.dat, h3.oe, h3.shreg, h3.bitcnt, h3.latch, h2.latch, h3.answers, h2.answers, h3.draws,
    h2.draws, h3.log, h2.log, hs1, framesEvents, Frame.events]

/-- The protected write (R92). -/
theorem protectedOps_spec (a : Byte) (src : ByteSrc) (s : State) :
    WroteFrames (protectedFrames a (src.value s)) 0 s (performAll (protectedOps a src) s) := by
  have h1 := writeOps_spec addrWp (.lit 0) s
  have h2 := writeOps_spec a src (performAll disableOps s)
  have h3 := writeOps_spec addrWp (.lit 0) (performAll (writeOps a src) (performAll disableOps s))
  rw [value_of_latch src (t := performAll disableOps s) h1.latch] at h2
  have h := (h1.append h2).append h3
  simpa [protectedOps, protectedFrames, disableOps, ByteSrc.value, addrWp] using h

/-- The seven setters of SETDATETIME (R124). -/
theorem dateTimeOps_spec (y mo d w h mi sec : Nat) (s : State) :
    WroteFrames (dateTimeFrames y mo d w h mi sec) 0 s (performAll (planSetdatetime y mo d w h mi sec).ops s) := by
  have set : ∀ (f : Field) (v : Nat) (u : State),
      WroteFrames (protectedFrames f.writeAddr (f.setByte v)) 0 u (performAll (setOps f v) u) :=
    fun f v u => protectedOps_spec f.writeAddr (.lit (f.setByte v)) u
  have all := ((((((set .year y s).append (set .month mo _)).append (set .day d _)).append (set .weekday w _)).append
    (set .hour h _)).append (set .minute mi _)).append (set .second sec _)
  simpa [planSetdatetime, dateTimeFrames, Field.writeAddr, Field.setByte, Field.modulus] using all

/-- What `t` has of `s` after a read frame (R90). -/
structure ReadFrame (a r : Byte) (s t : State) : Prop where
  clk : t.clkOut = false
  ce : t.ceOut = false
  dat : t.datOut = a.getLsbD 7
  oe : t.datOe = false
  shreg : t.shreg = r
  bitcnt : t.bitcnt = 8
  log : t.log = (framesEvents [.read a r]).reverse ++ s.log

/-- The state in which a read frame begins to sample. -/
def beforeSamples (a : Byte) (s : State) : State := performAll (sendByte (.lit a)) ((PinOp.ce true).perform s)

/-- The byte a read frame returns (R90). -/
def frameByte (a : Byte) (s : State) : Byte := receivedByte (beforeSamples a s)

theorem readOps_spec (a : Byte) (s : State) :
    ReadFrame a (frameByte a s) s (performAll (readOps a) s) ∧ (performAll (readOps a) s).latch = s.latch := by
  have h1 : Sent a ((PinOp.ce true).perform s) (beforeSamples a s) := sendByte_spec (.lit a) _
  have h2 := receiveByte_spec (beforeSamples a s)
  have run : performAll (readOps a) s = (PinOp.ce false).perform (performAll receiveByte (beforeSamples a s)) := by
    simp [readOps, beforeSamples]
  rw [run]
  constructor
  · constructor <;> simp [h2.clk, h2.dat, h1.dat, h2.oe, h2.shreg, h2.bitcnt, h2.log, h1.log, frameByte, framesEvents,
      Frame.events]
  · simp [h2.latch, h1.latch]

theorem readLatchOps_spec (a : Byte) (s : State) :
    ReadFrame a (frameByte a s) s (performAll (readLatchOps a) s) ∧
      (performAll (readLatchOps a) s).latch = frameByte a s := by
  have h1 : Sent a ((PinOp.ce true).perform s) (beforeSamples a s) := sendByte_spec (.lit a) _
  have h2 := receiveByte_spec (beforeSamples a s)
  have run : performAll (readLatchOps a) s = PinOp.ceLatch.perform (performAll receiveByte (beforeSamples a s)) := by
    simp [readLatchOps, beforeSamples]
  rw [run]
  constructor
  · constructor <;> simp [h2.clk, h2.dat, h1.dat, h2.oe, h2.shreg, h2.bitcnt, h2.log, h1.log, frameByte, framesEvents,
      Frame.events]
  · simp [h2.shreg, frameByte]

end Sys2Proof.Machine
end

