-- ==== Sys2Proof/Laws/Draw.lean ====
section
/-!
SUPPORT. Draws (spec/10_state.md R14): where nothing else answers, the eight levels of a byte are the next eight draws; and the two loopbacks
(spec/20_memory.md R49).
-/
namespace Sys2Proof.Machine

/-- Every read of the eight is a draw. -/
def AllDraws (s : State) : Prop := ∀ k < 8, (beforeBit k s).fixtureLevel = none

theorem drawLevel_eq (s : State) : s.drawLevel = s.draw 0 := by
  unfold State.drawLevel State.draw
  cases s.answers <;> simp

/-- The inputs that are left after `k` draws. -/
theorem beforeBit_inputs (s : State) (h : AllDraws s) {k : Nat} (hk : k ≤ 8) :
    (beforeBit k s).answers = s.answers.drop k ∧ (beforeBit k s).draws = s.draws + (k - s.answers.length) := by
  induction k with
  | zero => exact ⟨rfl, by simp [beforeBit]⟩
  | succ k ih =>
    obtain ⟨ha, hd⟩ := ih (by omega)
    have hn := h k (by omega)
    rw [beforeBit_succ]
    simp only [receiveBit, performAll_cons, performAll_nil, perform_clkLow_answers, perform_clkHigh_answers,
      perform_sample_answers, perform_clkLow_draws, perform_clkHigh_draws, perform_sample_draws, hn, ha, hd]
    refine ⟨by simp, ?_⟩
    simp only [Option.isNone_none, Bool.true_and, List.isEmpty_iff, List.drop_eq_nil_iff]
    split <;> omega

theorem beforeBit_level (s : State) (h : AllDraws s) {k : Nat} (hk : k < 8) : (beforeBit k s).readLevel = s.draw k := by
  obtain ⟨ha, hd⟩ := beforeBit_inputs s h (k := k) (by omega)
  rw [State.readLevel, h k hk, Option.getD_none, drawLevel_eq]
  unfold State.draw
  rw [ha, hd]
  simp only [List.length_drop, List.getD_eq_getElem?_getD, List.getElem?_drop, Nat.add_zero]
  by_cases hlt : k < s.answers.length
  · simp [hlt]
  · have hnone : s.answers[k]? = none := by simp; omega
    rw [hnone]
    simp only [Option.getD_none]
    congr 1
    omega

/-- A byte of draws (R14, R81). -/
theorem receivedByte_draws (s : State) (h : AllDraws s) : receivedByte s = byteOf s.draw := by
  have e := fun k (hk : k < 8) => beforeBit_level s h hk
  unfold receivedByte byteOf
  dsimp only
  rw [e 0 (by omega), e 1 (by omega), e 2 (by omega), e 3 (by omega), e 4 (by omega), e 5 (by omega), e 6 (by omega), e 7 (by omega)]

/-- In the general model every read is a draw (R14). -/
theorem allDraws_general (s : State) (h : s.cfg.line = .general) : AllDraws s := by
  intro k _
  simp [State.fixtureLevel, show (beforeBit k s).cfg.line = .general by simpa [beforeBit] using h]

/-- Draws depend on the inputs alone. -/
theorem draw_of_inputs {s t : State} (ha : t.answers = s.answers) (hd : t.draws = s.draws) : t.draw = s.draw := by
  funext k; simp [State.draw, ha, hd]

/-- Where the fixture answers all eight reads, no draw is made. -/
theorem receiveByte_answered (s : State) (h : ∀ k < 8, (beforeBit k s).fixtureLevel.isSome = true) :
    NoDraw s (performAll receiveByte s) := by
  have key : ∀ k ≤ 8, NoDraw s (beforeBit k s) := by
    intro k hk
    induction k with
    | zero => exact ⟨rfl, rfl⟩
    | succ k ih =>
      obtain ⟨ha, hd⟩ := ih (by omega)
      have hs := h k (by omega)
      rw [beforeBit_succ]
      constructor <;> simp [receiveBit, hs, ha, hd, Option.isNone_eq_false_iff.mpr hs]
  exact key 8 (by omega)

/-! ### Loopbacks -/

/-- On any line but the reference peer's, no operation changes the peer. -/
theorem performAll_peer_kept (ops : List PinOp) (s : State) (h : s.cfg.line ≠ .referencePeer) :
    (performAll ops s).peer = s.peer := by
  induction ops generalizing s with
  | nil => rfl
  | cons op ops ih =>
    have one : (op.perform s).peer = s.peer := by
      cases op <;> cases hl : s.cfg.line <;> simp_all [State.peerAfterWrite, State.peerAfterRead]
    rw [performAll_cons, ih _ (by simpa using h), one]

/-- On any line but the FIFO loopback's, no operation changes its queue. -/
theorem performAll_fifo_kept (ops : List PinOp) (s : State) (h : s.cfg.line ≠ .fifoLoopback) :
    (performAll ops s).fifo = s.fifo := by
  induction ops generalizing s with
  | nil => rfl
  | cons op ops ih =>
    have one : (op.perform s).fifo = s.fifo := by
      cases op <;> cases hl : s.cfg.line <;> simp_all [State.fifoAfterWrite]
    rw [performAll_cons, ih _ (by simpa using h), one]

end Sys2Proof.Machine
end

