-- ==== Sys2Proof/Laws/Failure.lean ====
section
/-!
SUPPORT. Pin operations that can fail (spec/60_exceptions.md R142): a run in which none does, and a run up to the first that does.
-/
namespace Sys2Proof.Machine

/-- The same engine, able to fail, with these verdicts to come. -/
def State.failing (vs : List Bool) (s : State) : State :=
  { s with cfg := { s.cfg with pinIoCanFail := true }, ioFails := vs }

/-- An operation that succeeds does not look at the verdicts. -/
theorem perform_failing (op : PinOp) (s : State) (vs : List Bool) :
    op.perform (s.failing vs) = (op.perform s).failing vs := by cases op <;> rfl

/-- Nor does the end of a command. -/
theorem finish_failing (e : Ending) (s : State) (vs : List Bool) : finish e (s.failing vs) = (finish e s).failing vs := by
  cases e
  case toBcd v =>
    show (if v ≤ 99 ∨ s.cfg.d2bWraps = true then _ else _) =
      State.failing vs (if v ≤ 99 ∨ s.cfg.d2bWraps = true then _ else _)
    split <;> rfl
  all_goals rfl

/-- The next verdict is success. -/
theorem nextFails_success (s : State) (vs : List Bool) :
    (s.failing (false :: vs)).nextFails = false ∧ (s.failing (false :: vs)).takeVerdict = s.failing vs := ⟨rfl, rfl⟩

/-- No operation fails: all are performed, and their verdicts are used up. -/
theorem runOps_success (ops : List PinOp) (s : State) (rest : List Bool) :
    runOps ops (s.failing (List.replicate ops.length false ++ rest)) = .completed ((performAll ops s).failing rest) := by
  induction ops generalizing s with
  | nil => rfl
  | cons op ops ih =>
    simp only [List.length_cons, List.replicate_succ, List.cons_append, runOps, nextFails_success, Bool.false_eq_true, if_false,
      perform_failing, ih, performAll_cons]

/-- Operation `k` is the first to fail: exactly those before it are performed. -/
theorem runOps_failure (ops : List PinOp) (s : State) (k : Nat) (rest : List Bool) (hk : k < ops.length) :
    runOps ops (s.failing (List.replicate k false ++ true :: rest)) = .failed ((performAll (ops.take k) s).failing rest) := by
  induction ops generalizing s k with
  | nil => simp at hk
  | cons op ops ih =>
    cases k with
    | zero => rfl
    | succ k =>
      simp only [List.replicate_succ, List.cons_append, runOps, nextFails_success, Bool.false_eq_true, if_false, perform_failing,
        List.take_succ_cons, performAll_cons]
      exact ih _ _ (by simpa using hk)

end Sys2Proof.Machine
end

