-- ==== Sys2Proof/Laws/Memory.lean ====
section
/-!
SUPPORT. The peer's registers: a read after a write, and that every operation keeps the canonical form.
-/
namespace Sys2Proof.Machine

theorem Memory.read_cons_of_above {m : Memory} {k a : Nat} (h : Memory.above k m = true) (ha : a ≤ k) :
    Memory.read m a = unlistedByte := by
  induction m with
  | nil => rfl
  | cons c m ih =>
    simp only [Memory.above, List.all_cons, Bool.and_eq_true, decide_eq_true_eq] at h
    simp only [Memory.read]
    rw [if_neg (by omega)]
    exact ih (by simpa [Memory.above] using h.2)

/-- A read of a cell put in front, where no byte of the rest lies at its address. -/
theorem Memory.read_cons (a : Nat) (b : Byte) (m : Memory) (hm : Memory.read m a = unlistedByte) (x : Nat) :
    Memory.read (Memory.cons a b m) x = if x = a then b else Memory.read m x := by
  unfold Memory.cons
  split
  · rename_i hb
    split
    · subst hb; rename_i hx; rw [hx, hm]
    · rfl
  · simp only [Memory.read, eq_comm (a := a)]

theorem Memory.above_mono {m : Memory} {j k : Nat} (h : Memory.above k m = true) (hjk : j ≤ k) : Memory.above j m = true := by
  simp only [Memory.above, List.all_eq_true, decide_eq_true_eq] at *
  intro c hc; have := h c hc; omega

theorem Memory.above_cons {k a : Nat} {b : Byte} {m : Memory} (ha : k < a) (h : Memory.above k m = true) :
    Memory.above k (Memory.cons a b m) = true := by
  unfold Memory.cons
  split
  · exact h
  · simp only [Memory.above, List.all_cons, Bool.and_eq_true, decide_eq_true_eq]; exact ⟨ha, h⟩

theorem Memory.above_write {k a : Nat} {b : Byte} {m : Memory} (ha : k < a) (h : Memory.above k m = true) :
    Memory.above k (Memory.write m a b) = true := by
  induction m with
  | nil => exact Memory.above_cons ha rfl
  | cons c m ih =>
    have hc : k < c.1 ∧ Memory.above k m = true := by simpa [Memory.above] using h
    simp only [Memory.write]
    split
    · exact Memory.above_cons ha h
    · split
      · exact Memory.above_cons ha hc.2
      · simp only [Memory.above, List.all_cons, Bool.and_eq_true, decide_eq_true_eq]
        exact ⟨hc.1, ih hc.2⟩

theorem Memory.wf_cons {a : Nat} {b : Byte} {m : Memory} (ha : isWriteAddr a = true) (hab : Memory.above a m = true)
    (h : Memory.wf m = true) : Memory.wf (Memory.cons a b m) = true := by
  unfold Memory.cons
  split
  · exact h
  · rename_i hb
    simp [Memory.wf, hab, ha, hb, h]

/-- A write to one of the 40 write addresses keeps the canonical form. -/
theorem Memory.wf_write {m : Memory} {a : Nat} (b : Byte) (ha : isWriteAddr a = true) (h : Memory.wf m = true) :
    Memory.wf (Memory.write m a b) = true := by
  induction m with
  | nil => exact Memory.wf_cons ha rfl rfl
  | cons c m ih =>
    have hc : ((Memory.above c.1 m = true ∧ isWriteAddr c.1 = true) ∧ c.2 ≠ unlistedByte) ∧ Memory.wf m = true := by
      simpa [Memory.wf] using h
    obtain ⟨⟨⟨habove, haddr⟩, hbyte⟩, hwf⟩ := hc
    simp only [Memory.write]
    split
    · rename_i hlt
      refine Memory.wf_cons ha ?_ h
      simp only [Memory.above, List.all_cons, Bool.and_eq_true, decide_eq_true_eq]
      exact ⟨hlt, Memory.above_mono habove (by omega)⟩
    · split
      · rename_i heq
        exact Memory.wf_cons ha (heq ▸ habove) hwf
      · rename_i h1 h2
        simp [Memory.wf, Memory.above_write (show c.1 < a by omega) habove, haddr, hbyte, ih hwf]

/-- A read after a write, in a canonical memory. -/
theorem Memory.read_write {m : Memory} (h : Memory.wf m = true) (a : Nat) (b : Byte) (x : Nat) :
    Memory.read (Memory.write m a b) x = if x = a then b else Memory.read m x := by
  induction m with
  | nil => exact Memory.read_cons a b [] rfl x
  | cons c m ih =>
    have hc : ((Memory.above c.1 m = true ∧ isWriteAddr c.1 = true) ∧ c.2 ≠ unlistedByte) ∧ Memory.wf m = true := by
      simpa [Memory.wf] using h
    obtain ⟨⟨⟨habove, haddr⟩, hbyte⟩, hwf⟩ := hc
    simp only [Memory.write]
    split
    · rename_i hlt
      refine Memory.read_cons a b (c :: m) ?_ x
      simp only [Memory.read]
      rw [if_neg (by omega)]
      exact Memory.read_cons_of_above habove (by omega)
    · split
      · rename_i heq
        rw [Memory.read_cons a b m (Memory.read_cons_of_above habove (by omega))]
        by_cases hx : x = a
        · rw [if_pos hx, if_pos hx]
        · rw [if_neg hx, if_neg hx]
          simp only [Memory.read]
          rw [if_neg (by omega)]
      · rename_i h1 h2
        simp only [Memory.read, ih hwf]
        by_cases hx : c.1 = x
        · rw [if_pos hx, if_pos hx, if_neg (by omega)]
        · rw [if_neg hx, if_neg hx]

theorem Tick.wf_apply (t : Tick) {m : Memory} (h : Memory.wf m = true) : Memory.wf (t.apply m) = true := by
  unfold Tick.apply
  split
  · exact h
  · repeat' refine Memory.wf_write _ (by decide) ?_
    exact h

/-- The seven time registers of a tick (R48): what a running chip's registers read after it. -/
theorem Tick.read_apply (t : Tick) {m : Memory} (h : Memory.wf m = true) (x : Nat) :
    Memory.read (t.apply m) x =
      if haltBit (m.read 0x80) then m.read x
      else if x = 0x8C then t.year else if x = 0x8A then t.weekday else if x = 0x88 then t.month
      else if x = 0x86 then t.day else if x = 0x84 then t.hour else if x = 0x82 then t.minutes
      else if x = 0x80 then clearHalt t.seconds else m.read x := by
  have w : ∀ {m : Memory} (a : Nat) (b : Byte), isWriteAddr a = true → Memory.wf m = true → Memory.wf (m.write a b) = true :=
    fun a b ha hm => Memory.wf_write b ha hm
  unfold Tick.apply
  split
  · rfl
  · have h1 := w 0x80 (clearHalt t.seconds) (by decide) h
    have h2 := w 0x82 t.minutes (by decide) h1
    have h3 := w 0x84 t.hour (by decide) h2
    have h4 := w 0x86 t.day (by decide) h3
    have h5 := w 0x88 t.month (by decide) h4
    have h6 := w 0x8A t.weekday (by decide) h5
    rw [Memory.read_write h6, Memory.read_write h5, Memory.read_write h4, Memory.read_write h3, Memory.read_write h2,
      Memory.read_write h1, Memory.read_write h]

/-! ### The peer's operations keep the canonical form -/

theorem Peer.wf_write {p : Peer} (mask a v : Byte) (h : p.mem.wf = true) : (p.write mask a v).mem.wf = true := by
  unfold Peer.write
  split
  · exact h
  · rename_i hmap
    have ha : isWriteAddr a.toNat = true := by simp at hmap; exact hmap.2
    split
    · exact Memory.wf_write v ha h
    · split
      · exact Memory.wf_write v ha h
      · exact h

theorem Peer.wf_tick {p : Peer} (h : p.mem.wf = true) : p.tick.mem.wf = true := by
  unfold Peer.tick
  split
  · exact h
  · exact Tick.wf_apply _ h

theorem Peer.wf_pulse {p : Peer} (l : Level) (oe : Bool) (h : p.mem.wf = true) : (p.pulse l oe).mem.wf = true := by
  unfold Peer.pulse
  split_ifs <;> exact h

theorem Peer.wf_closeFrame {p : Peer} (mask : Byte) (h : p.mem.wf = true) : (p.closeFrame mask).mem.wf = true := by
  unfold Peer.closeFrame
  split_ifs
  · exact h
  · exact Peer.wf_write mask _ _ h
  · exact h

theorem Peer.wf_afterWrite {p : Peer} (mask : Byte) (c e d : Level) (oe : Bool) (pin : Pin) (l : Level) (h : p.mem.wf = true) :
    (p.afterWrite mask c e d oe pin l).mem.wf = true := by
  unfold Peer.afterWrite
  split
  · exact h
  · split
    · split
      · exact h
      · exact Peer.wf_tick h
    · split
      · exact Peer.wf_closeFrame mask h
      · exact h
    · split
      · exact Peer.wf_pulse _ _ h
      · exact h
    · exact h
    · exact h

theorem Peer.wf_afterRead {p : Peer} (h : p.mem.wf = true) : p.afterRead.mem.wf = true := by
  unfold Peer.afterRead
  split_ifs <;> exact h

theorem State.wf_pinWrite {s : State} (p : Pin) (l : Level) (h : s.peer.mem.wf = true) :
    (s.pinWrite p l).peer.mem.wf = true := by
  show (s.peerAfterWrite p l).mem.wf = true
  unfold State.peerAfterWrite
  split
  · exact Peer.wf_afterWrite _ _ _ _ _ _ _ h
  all_goals exact h

theorem State.wf_pinRead {s : State} (h : s.peer.mem.wf = true) : s.pinRead.peer.mem.wf = true := by
  show s.peerAfterRead.mem.wf = true
  unfold State.peerAfterRead
  split
  · split
    · exact h
    · exact Peer.wf_afterRead h
  all_goals exact h

theorem State.wf_perform {s : State} (op : PinOp) (h : s.peer.mem.wf = true) : (op.perform s).peer.mem.wf = true := by
  cases op
  case sample => exact State.wf_pinRead h
  all_goals exact State.wf_pinWrite _ _ h

end Sys2Proof.Machine
end

