-- ==== Sys2Proof/Laws/Peer.lean ====
section
/-!
SUPPORT. What one byte and one frame do to the reference peer (spec/20_memory.md R44 to R46).
-/
namespace Sys2Proof.Machine

/-- The reference peer takes part, and has refused no frame. -/
structure Engaged (s : State) : Prop where
  line : s.cfg.line = .referencePeer
  inside : s.peer.outside = false

theorem byteOf_eq (b : Byte) :
    levelAt (b.getLsbD 0) 0 ||| levelAt (b.getLsbD 1) 1 ||| levelAt (b.getLsbD 2) 2 ||| levelAt (b.getLsbD 3) 3 |||
      levelAt (b.getLsbD 4) 4 ||| levelAt (b.getLsbD 5) 5 ||| levelAt (b.getLsbD 6) 6 ||| levelAt (b.getLsbD 7) 7 = b :=
  byteOf_bits b

/-- One bit sent in a frame is one pulse at the peer. -/
theorem sendBit_peer (src : ByteSrc) (k : Nat) (s : State) (hs : Engaged s) (hclk : s.clkOut = false) (hf : s.peer.inframe = true) :
    (performAll (sendBit src k) s).peer = s.peer.pulse ((s.sendReg src k).getLsbD k) true := by
  have h1 : (PinOp.perform (.drive src k) s).peer = s.peer := by
    simp [State.peerAfterWrite, hs.line, Peer.afterWrite]
  have h2 : (PinOp.perform .clkHigh (PinOp.perform (.drive src k) s)).peer =
      s.peer.pulse ((s.sendReg src k).getLsbD k) true := by
    rw [perform_clkHigh_peer, State.peerAfterWrite]
    simp only [perform_cfg, hs.line, h1]
    simp [Peer.afterWrite, hs.inside, hclk, hf]
  have h3 : ∀ u : State, u.cfg.line = .referencePeer → (PinOp.perform .clkLow u).peer = u.peer := by
    intro u hu; simp [State.peerAfterWrite, hu, Peer.afterWrite]
  simp only [sendBit, performAll_cons, performAll_nil]
  rw [h3 _ (by simpa using hs.line), h2]

/-- One bit received in a frame: the read, then the pulse. -/
theorem receiveBit_peer (k : Nat) (s : State) (hs : Engaged s) (hclk : s.clkOut = false) (hf : s.peer.afterRead.inframe = true)
    (ho : s.peer.afterRead.outside = false) :
    (performAll (receiveBit k) s).peer = s.peer.afterRead.pulse s.datOut false := by
  have h1 : (PinOp.perform (.sample k) s).peer = s.peer.afterRead := by
    simp [State.peerAfterRead, hs.line, hs.inside]
  have h2 : (PinOp.perform .clkHigh (PinOp.perform (.sample k) s)).peer = s.peer.afterRead.pulse s.datOut false := by
    rw [perform_clkHigh_peer, State.peerAfterWrite]
    simp only [perform_cfg, hs.line, h1]
    simp [Peer.afterWrite, ho, hclk, hf]
  have h3 : ∀ u : State, u.cfg.line = .referencePeer → (PinOp.perform .clkLow u).peer = u.peer := by
    intro u hu; simp [State.peerAfterWrite, hu, Peer.afterWrite]
  simp only [receiveBit, performAll_cons, performAll_nil]
  rw [h3 _ (by simpa using hs.line), h2]

/-- Once the fixture has refused, nothing changes it. -/
theorem performAll_refused (ops : List PinOp) (s : State) (line : s.cfg.line = .referencePeer) (h : s.peer.outside = true) :
    (performAll ops s).peer = s.peer := by
  induction ops generalizing s with
  | nil => rfl
  | cons op ops ih =>
    have one : (op.perform s).peer = s.peer := by
      cases op <;> simp [State.peerAfterWrite, State.peerAfterRead, line, h, Peer.afterWrite]
    rw [performAll_cons, ih _ (by simpa using line) (by rw [one]; exact h), one]

/-- The bits sent so far. -/
def sentBits (b : Byte) : Nat → Byte
  | 0 => 0#8
  | k + 1 => sentBits b k ||| levelAt (b.getLsbD k) k

theorem sentBits_eight (b : Byte) : sentBits b 8 = b := by
  simp only [sentBits]
  rw [BitVec.zero_or]
  exact byteOf_eq b

/-- The state after the first `k` bits of a byte were sent. -/
def afterBits (src : ByteSrc) (k : Nat) (s : State) : State := performAll ((List.range k).flatMap (sendBit src)) s

theorem afterBits_succ (src : ByteSrc) (k : Nat) (s : State) :
    afterBits src (k + 1) s = performAll (sendBit src k) (afterBits src k s) := by
  simp [afterBits, List.range_succ]

theorem afterBits_eight (src : ByteSrc) (s : State) : afterBits src 8 s = performAll (sendByte src) s := rfl

theorem afterBits_engine (src : ByteSrc) (k : Nat) (s : State) (hclk : s.clkOut = false) :
    (afterBits src k s).clkOut = false ∧ (afterBits src k s).latch = s.latch ∧
      (afterBits src k s).sendReg src k = src.value s := by
  induction k with
  | zero => simp [afterBits, hclk, State.sendReg]
  | succ k ih =>
    obtain ⟨-, hl, hr⟩ := ih
    rw [afterBits_succ]
    refine ⟨by simp [sendBit], by simp [sendBit, hl], ?_⟩
    simp only [sendBit, performAll_cons, performAll_nil, State.sendReg, Nat.add_one_ne_zero, if_false, perform_clkLow_shreg,
      perform_clkHigh_shreg, perform_drive_shreg]
    simpa [State.sendReg] using hr

/-- The address byte of a frame (R46). -/
theorem sendAddress_peer (src : ByteSrc) (s : State) (hs : Engaged s) (hclk : s.clkOut = false) (hf : s.peer.inframe = true)
    (hn : s.peer.n = 0) (ha : s.peer.abyte = 0) :
    (performAll (sendByte src) s).peer = { s.peer with n := 8, abyte := src.value s } := by
  have key : ∀ k ≤ 8, (afterBits src k s).peer = { s.peer with n := k, abyte := sentBits (src.value s) k } := by
    intro k hk
    induction k with
    | zero => show s.peer = _; rcases hp : s.peer; simp_all [sentBits]
    | succ k ih =>
      have ih := ih (by omega)
      obtain ⟨hc, -, hr⟩ := afterBits_engine src k s hclk
      rw [afterBits_succ, sendBit_peer src k _ ⟨by simpa [afterBits] using hs.line, by rw [ih]; exact hs.inside⟩ hc
        (by rw [ih]; exact hf), hr, ih]
      simp [Peer.pulse, show k < 8 by omega, sentBits]
  rw [← afterBits_eight, key 8 (by omega), sentBits_eight]

/-- The data byte of a write frame at an even address (R46). -/
theorem sendData_peer (src : ByteSrc) (s : State) (hs : Engaged s) (hclk : s.clkOut = false) (hf : s.peer.inframe = true)
    (hn : s.peer.n = 8) (hd : s.peer.dbyte = 0) (ha : readDirection s.peer.abyte = false) :
    (performAll (sendByte src) s).peer = { s.peer with n := 16, dbyte := src.value s } := by
  have key : ∀ k ≤ 8, (afterBits src k s).peer = { s.peer with n := 8 + k, dbyte := sentBits (src.value s) k } := by
    intro k hk
    induction k with
    | zero => show s.peer = _; rcases hp : s.peer; simp_all [sentBits]
    | succ k ih =>
      have ih := ih (by omega)
      obtain ⟨hc, -, hr⟩ := afterBits_engine src k s hclk
      rw [afterBits_succ, sendBit_peer src k _ ⟨by simpa [afterBits] using hs.line, by rw [ih]; exact hs.inside⟩ hc
        (by rw [ih]; exact hf), hr, ih]
      simp [Peer.pulse, show 8 + k < 16 by omega, sentBits, ha]
      omega
  rw [← afterBits_eight, key 8 (by omega), sentBits_eight]

/-- A data byte driven in a frame at an odd address: the fixture refuses (R45). -/
theorem sendData_refused (src : ByteSrc) (s : State) (hs : Engaged s) (hclk : s.clkOut = false) (hf : s.peer.inframe = true)
    (hn : s.peer.n = 8) (ha : readDirection s.peer.abyte = true) :
    (performAll (sendByte src) s).peer = s.peer.refuse := by
  have h0 : (performAll (sendBit src 0) s).peer = s.peer.refuse := by
    rw [sendBit_peer src 0 s hs hclk hf]; simp [Peer.pulse, hn, ha]
  have split : performAll (sendByte src) s =
      performAll ([1, 2, 3, 4, 5, 6, 7].flatMap (sendBit src)) (performAll (sendBit src 0) s) := by
    rw [← performAll_append]; rfl
  rw [split, performAll_refused _ _ (by simpa using hs.line) (by rw [h0]; rfl), h0]

theorem beforeBit_engine (k : Nat) (s : State) (hclk : s.clkOut = false) :
    (beforeBit k s).clkOut = false ∧ (beforeBit k s).datOut = s.datOut := by
  induction k with
  | zero => exact ⟨hclk, rfl⟩
  | succ k ih => rw [beforeBit_succ]; simp [receiveBit, ih.2]

/-- The data byte of a read frame at a mapped read address (R46): the peer gives its register. -/
theorem receive_peer (s : State) (hs : Engaged s) (hclk : s.clkOut = false) (hf : s.peer.inframe = true)
    (hn : s.peer.n = 8) {v : Byte} (hv : s.peer.mem.answer s.peer.abyte = some v) :
    (performAll receiveByte s).peer = { s.peer with n := 16 } ∧ receivedByte s = v ∧
      NoDraw s (performAll receiveByte s) := by
  have ha : readDirection s.peer.abyte = true := by
    unfold Memory.answer at hv
    split at hv
    · cases hv
    · rename_i h; simp at h; exact h.1
  have key : ∀ k ≤ 8, (beforeBit k s).peer = { s.peer with n := 8 + k } := by
    intro k hk
    induction k with
    | zero => show s.peer = _; rcases hp : s.peer; simp_all
    | succ k ih =>
      have ih := ih (by omega)
      have hread : (beforeBit k s).peer.afterRead = (beforeBit k s).peer := by
        have hr : (beforeBit k s).peer.mem.answer (beforeBit k s).peer.abyte = some v := by rw [ih]; exact hv
        simp [Peer.afterRead, hr]
      rw [beforeBit_succ, receiveBit_peer k _ ⟨by simpa [beforeBit] using hs.line, by rw [ih]; exact hs.inside⟩
        (beforeBit_engine k s hclk).1 (by rw [hread, ih]; exact hf) (by rw [hread, ih]; exact hs.inside), hread, ih]
      simp [Peer.pulse, ha, show 8 + k < 16 by omega]
      omega
  refine ⟨key 8 (by omega), ?_⟩
  have level : ∀ k < 8, (beforeBit k s).fixtureLevel = some (v.getLsbD k) := by
    intro k hk
    have hp := key k (by omega)
    simp only [State.fixtureLevel, show (beforeBit k s).cfg.line = .referencePeer by
      simpa [beforeBit] using hs.line, hp, hs.inside]
    simp [Peer.answer, hf, ha, show 8 + k ≤ 15 by omega, hv]
  refine ⟨?_, receiveByte_answered s fun k hk => by simp [level k hk]⟩
  refine BitVec.eq_of_getLsbD_eq fun k hk => ?_
  rw [receivedByte, byteOf_bit _ hk, State.readLevel, level k hk, Option.getD_some]

/-- The data byte of a read frame that the fixture refuses: at an even address, or an odd one that is not mapped (R46, R40). -/
theorem receive_refused (s : State) (hs : Engaged s) (hclk : s.clkOut = false) (hf : s.peer.inframe = true)
    (hn : s.peer.n = 8) (hv : s.peer.mem.answer s.peer.abyte = none) :
    (performAll receiveByte s).peer = s.peer.refuse := by
  have h0 : (performAll (receiveBit 0) s).peer = s.peer.refuse := by
    by_cases ha : readDirection s.peer.abyte = true
    · have h1 : (PinOp.perform (.sample 0) s).peer = s.peer.refuse := by
        simp [State.peerAfterRead, hs.line, hs.inside, Peer.afterRead, hf, ha, hn, hv]
      have split : performAll (receiveBit 0) s = performAll [.clkHigh, .clkLow] (PinOp.perform (.sample 0) s) := rfl
      rw [split, performAll_refused _ _ (by simpa using hs.line) (by rw [h1]; rfl), h1]
    · have hread : s.peer.afterRead = s.peer := by simp [Peer.afterRead, ha]
      rw [receiveBit_peer 0 s hs hclk (by rw [hread]; exact hf) (by rw [hread]; exact hs.inside), hread]
      simp [Peer.pulse, hn, ha]
  have split : performAll receiveByte s =
      performAll ([1, 2, 3, 4, 5, 6, 7].flatMap receiveBit) (performAll (receiveBit 0) s) := by
    rw [← performAll_append]; rfl
  rw [split, performAll_refused _ _ (by simpa using hs.line) (by rw [h0]; rfl), h0]

/-! ### Frames -/

/-- Outside a frame, the peer of `t` is `q`: same registers, same verdict of the fixture, same free inputs. -/
structure PeerIs (q : Peer) (t : State) : Prop where
  mem : t.peer.mem = q.mem
  outside : t.peer.outside = q.outside
  ticks : t.peer.ticks = q.ticks
  noFrame : t.peer.inframe = false

theorem Peer.tick_outside (p : Peer) : p.tick.outside = p.outside := by unfold Peer.tick; split <;> rfl

/-- The state in which the address byte of a frame has been sent (R46): the peer has ticked, and holds the address. -/
theorem afterAddress (a : Byte) (s : State) (hs : Engaged s) (hclk : s.clkOut = false) (hce : s.ceOut = false) :
    (beforeSamples a s).peer = { s.peer.tick with inframe := true, n := 8, abyte := a, dbyte := 0 } := by
  have h1 : ((PinOp.ce true).perform s).peer = s.peer.openFrame := by
    simp [State.peerAfterWrite, hs.line, Peer.afterWrite, hs.inside, hce]
  rw [beforeSamples, sendAddress_peer (.lit a) _
    ⟨by simpa using hs.line, by rw [h1]; simp [Peer.openFrame, Peer.tick_outside, hs.inside]⟩
    (by simpa using hclk) (by rw [h1]; rfl) (by rw [h1]; rfl) (by rw [h1]; rfl), h1]
  simp [Peer.openFrame, ByteSrc.value]

/-- The end of a frame at the peer: `W(CE,0)` while `inframe`. -/
theorem closing_peer (s : State) (hs : Engaged s) (hf : s.peer.inframe = true) :
    (s.peerAfterWrite .ce false) = s.peer.closeFrame s.cfg.wpMask := by
  simp [State.peerAfterWrite, hs.line, Peer.afterWrite, hs.inside, hf]

/-- A write frame's effect does not depend on the frame registers. -/
theorem Peer.write_frameRegs (p : Peer) (mask a v : Byte) (n : Nat) (x y : Byte) (f : Bool) :
    ({ p with inframe := f, n := n, abyte := x, dbyte := y }.write mask a v).mem = (p.write mask a v).mem ∧
      ({ p with inframe := f, n := n, abyte := x, dbyte := y }.write mask a v).outside = (p.write mask a v).outside ∧
      ({ p with inframe := f, n := n, abyte := x, dbyte := y }.write mask a v).ticks = (p.write mask a v).ticks := by
  unfold Peer.write
  split_ifs <;> exact ⟨rfl, rfl, rfl⟩

/-- A write frame at the reference peer (R45), whatever its address: time may have passed before it. -/
theorem writeOps_peer (a : Byte) (src : ByteSrc) (s : State) (hs : Engaged s) (hclk : s.clkOut = false) (hce : s.ceOut = false) :
    PeerIs (s.peer.tick.write s.cfg.wpMask a (src.value s)) (performAll (writeOps a src) s) := by
  obtain ⟨s2, hs2⟩ : ∃ s2, s2 = beforeSamples a s := ⟨_, rfl⟩
  have hp := afterAddress a s hs hclk hce
  have hsent : Sent a ((PinOp.ce true).perform s) s2 := hs2 ▸ sendByte_spec (.lit a) _
  have hcfg : s2.cfg = s.cfg := by rw [hs2]; simp [beforeSamples]
  have hval : src.value s2 = src.value s := value_of_latch src (by simpa using hsent.latch)
  have heng : Engaged s2 := ⟨by rw [hcfg]; exact hs.line, by rw [hs2, hp]; exact (Peer.tick_outside _).trans hs.inside⟩
  have run : performAll (writeOps a src) s = (PinOp.ce false).perform (performAll (sendByte src) s2) := by
    rw [hs2]; simp [writeOps, beforeSamples]
  rw [← hs2] at hp
  have hin : s2.peer.inframe = true := by rw [hp]
  have hn : s2.peer.n = 8 := by rw [hp]
  have hab : s2.peer.abyte = a := by rw [hp]
  rw [run]
  by_cases hodd : readDirection a = true
  · have h3 := sendData_refused src s2 heng hsent.clk hin hn (by rw [hab]; exact hodd)
    have hlast : ((PinOp.ce false).perform (performAll (sendByte src) s2)).peer = s2.peer.refuse := by
      have := performAll_refused [.ce false] (performAll (sendByte src) s2) (by simpa using heng.line) (by rw [h3]; rfl)
      rw [← h3]; exact this
    have hw : s.peer.tick.write s.cfg.wpMask a (src.value s) = s.peer.tick.refuse := by simp [Peer.write, hodd]
    rw [hw]
    constructor <;> rw [hlast, hp] <;> rfl
  · have heven : readDirection a = false := by simpa using hodd
    have h3 := sendData_peer src s2 heng hsent.clk hin hn (by rw [hp]) (by rw [hab]; exact heven)
    rw [hval] at h3
    have hlast : ((PinOp.ce false).perform (performAll (sendByte src) s2)).peer =
        (performAll (sendByte src) s2).peer.closeFrame s.cfg.wpMask := by
      rw [perform_ce_peer, closing_peer _ ⟨by simpa using heng.line, by rw [h3]; exact heng.inside⟩ (by rw [h3]; exact hin)]
      simp [hcfg]
    have hclose : (performAll (sendByte src) s2).peer.closeFrame s.cfg.wpMask =
        { ({ s.peer.tick with inframe := true, n := 16, abyte := a, dbyte := src.value s } : Peer).write s.cfg.wpMask a
            (src.value s) with inframe := false } := by
      rw [h3, hp]; simp [Peer.closeFrame, heven]
    obtain ⟨hm, ho, ht⟩ := Peer.write_frameRegs s.peer.tick s.cfg.wpMask a (src.value s) 16 a (src.value s) true
    exact ⟨by rw [hlast, hclose]; exact hm, by rw [hlast, hclose]; exact ho, by rw [hlast, hclose]; exact ht,
      by rw [hlast, hclose]⟩

/-- A read frame at a mapped read address of the reference peer (R46): the register's byte is returned and no register changes, but for
the time that may have passed before it. -/
theorem readOps_peer (a : Byte) (s : State) (hs : Engaged s) (hclk : s.clkOut = false) (hce : s.ceOut = false) {v : Byte}
    (hv : s.peer.tick.mem.answer a = some v) :
    frameByte a s = v ∧ PeerIs s.peer.tick (performAll (readOps a) s) ∧ PeerIs s.peer.tick (performAll (readLatchOps a) s) ∧
      NoDraw s (performAll (readOps a) s) ∧ NoDraw s (performAll (readLatchOps a) s) := by
  obtain ⟨s2, hs2⟩ : ∃ s2, s2 = beforeSamples a s := ⟨_, rfl⟩
  have hp := afterAddress a s hs hclk hce
  have hsent : Sent a ((PinOp.ce true).perform s) s2 := hs2 ▸ sendByte_spec (.lit a) _
  have hcfg : s2.cfg = s.cfg := by rw [hs2]; simp [beforeSamples]
  have heng : Engaged s2 := ⟨by rw [hcfg]; exact hs.line, by rw [hs2, hp]; exact (Peer.tick_outside _).trans hs.inside⟩
  rw [← hs2] at hp
  have hin : s2.peer.inframe = true := by rw [hp]
  have hodd : readDirection a = true := by
    unfold Memory.answer at hv
    split at hv
    · cases hv
    · rename_i h; simp at h; exact h.1
  obtain ⟨h3, hr, hd⟩ := receive_peer s2 heng hsent.clk hin (by rw [hp]) (v := v) (by rw [hp]; exact hv)
  have heng3 : Engaged (performAll receiveByte s2) := ⟨by simpa using heng.line, by rw [h3]; exact heng.inside⟩
  have hclose : (performAll receiveByte s2).peer.closeFrame (performAll receiveByte s2).cfg.wpMask =
      { s.peer.tick with inframe := false, n := 16, abyte := a, dbyte := 0 } := by
    rw [h3, hp]; simp [Peer.closeFrame, hodd]
  have run : ∀ op : PinOp, (op.perform (performAll receiveByte s2)).peer =
      (performAll receiveByte s2).peerAfterWrite .ce false →
      PeerIs s.peer.tick (op.perform (performAll receiveByte s2)) := by
    intro op h
    rw [closing_peer _ heng3 (by rw [h3]; exact hin), hclose] at h
    exact ⟨by rw [h], by rw [h], by rw [h], by rw [h]⟩
  have e : performAll (readOps a) s = (PinOp.ce false).perform (performAll receiveByte s2) := by
    rw [hs2]; simp [readOps, beforeSamples]
  have e' : performAll (readLatchOps a) s = PinOp.ceLatch.perform (performAll receiveByte s2) := by
    rw [hs2]; simp [readLatchOps, beforeSamples]
  have hd : NoDraw s (performAll receiveByte s2) :=
    ⟨hd.answers.trans (by simpa using hsent.answers), hd.draws.trans (by simpa using hsent.draws)⟩
  refine ⟨by rw [frameByte, ← hs2, hr], ?_, ?_, ?_, ?_⟩
  · rw [e]; exact run _ rfl
  · rw [e']; exact run _ rfl
  · rw [e]; exact ⟨hd.answers, hd.draws⟩
  · rw [e']; exact ⟨hd.answers, hd.draws⟩

/-- A read frame that the fixture refuses (R46): from then on it answers nothing. -/
theorem readOps_refused (a : Byte) (s : State) (hs : Engaged s) (hclk : s.clkOut = false) (hce : s.ceOut = false)
    (hv : s.peer.tick.mem.answer a = none) :
    PeerIs s.peer.tick.refuse (performAll (readOps a) s) := by
  obtain ⟨s2, hs2⟩ : ∃ s2, s2 = beforeSamples a s := ⟨_, rfl⟩
  have hp := afterAddress a s hs hclk hce
  have hsent : Sent a ((PinOp.ce true).perform s) s2 := hs2 ▸ sendByte_spec (.lit a) _
  have heng : Engaged s2 := ⟨by rw [hs2]; simpa [beforeSamples] using hs.line,
    by rw [hs2, hp]; exact (Peer.tick_outside _).trans hs.inside⟩
  rw [← hs2] at hp
  have h3 := receive_refused s2 heng hsent.clk (by rw [hp]) (by rw [hp]) (by rw [hp]; exact hv)
  have e : performAll (readOps a) s = performAll [.ce false] (performAll receiveByte s2) := by
    rw [hs2]; simp [readOps, beforeSamples]
  have hlast : (performAll (readOps a) s).peer = s2.peer.refuse := by
    rw [e, performAll_refused _ _ (by simpa using heng.line) (by rw [h3]; rfl), h3]
  constructor <;> rw [hlast, hp] <;> rfl

/-! ### What a write frame leaves in the registers -/

/-- A register after a write frame (R45): the byte written, where the peer takes it; every other register as before. -/
theorem Peer.read_write {p : Peer} (h : p.mem.wf = true) (mask a v : Byte) (x : Nat) :
    (p.write mask a v).mem.read x =
      if x = a.toNat ∧ readDirection a = false ∧ isWriteAddr a.toNat = true ∧
          (a = addrWp ∨ p.mem.read addrWp.toNat &&& mask = 0) then v
      else p.mem.read x := by
  unfold Peer.write
  by_cases h1 : (readDirection a || !isWriteAddr a.toNat) = true
  · rw [if_pos h1, if_neg]
    · rfl
    · rintro ⟨-, h2, h3, -⟩; simp [h2, h3] at h1
  · have h1' : readDirection a = false ∧ isWriteAddr a.toNat = true := by simpa using h1
    rw [if_neg h1]
    by_cases h2 : a = addrWp
    · subst h2
      rw [if_pos rfl, Memory.read_write h]
      simp [h1'.1, h1'.2]
    · rw [if_neg h2]
      by_cases h3 : p.mem.read addrWp.toNat &&& mask = 0
      · rw [if_pos h3, Memory.read_write h]; simp [h1'.1, h1'.2, h3]
      · rw [if_neg h3, if_neg]
        rintro ⟨-, -, -, h4 | h4⟩
        · exact h2 h4
        · exact h3 h4

end Sys2Proof.Machine
end

