-- ==== Sys2Proof/Laws/PerInstr.lean ====
section
/-!
SUPPORT. Per command: the descriptor that encodes it carries its opcode of the opcode map in bits 127:120, and the operands decoded from that
descriptor are the command's own (spec/30_encoding.md R60 to R62).
-/
namespace Sys2Proof.Laws.OpcodeField

/-- The statement for one command. -/
def Statement (i : Instr) : Prop :=
  opField (encode i) = i.opcode.code ∧ (i.wf = true → operandsOf i.opcode (encode i) = i)

/-- A command with one integer operand. -/
theorem value {o : Opcode} {i : Nat → Instr} (v : Nat) (ho : (i v).opcode = o) (he : encode (i v) = packValue o v)
    (hw : (i v).wf = true → v < 65536) (hd : ∀ d : Descriptor, operandsOf o d = i (vField 0 d).toNat) : Statement (i v) := by
  refine ⟨by rw [he, ho, opField_packValue], fun h => ?_⟩
  rw [ho, hd, he, vField0_packValue, BitVec.toNat_ofNat, Nat.mod_eq_of_lt (hw h)]

/-- A command without operands. -/
theorem bare {o : Opcode} {i : Instr} (ho : i.opcode = o) (he : encode i = packBare o)
    (hd : ∀ d : Descriptor, operandsOf o d = i) : Statement i :=
  ⟨by rw [he, ho, opField_packBare], fun _ => by rw [ho, hd]⟩

theorem d2b (v : Nat) : Statement (.d2b v) := value v rfl rfl of_decide_eq_true fun _ => rfl
theorem b2d (v : Nat) : Statement (.b2d v) := value v rfl rfl of_decide_eq_true fun _ => rfl
theorem wrbyte (v : Nat) : Statement (.wrbyte v) := value v rfl rfl of_decide_eq_true fun _ => rfl
theorem rdbyte : Statement .rdbyte := bare rfl rfl fun _ => rfl
theorem rdreg (a : Byte) : Statement (.rdreg a) := ⟨by simp [encode, Instr.opcode], by simp [encode, Instr.opcode, operandsOf]⟩
theorem wrreg (a : Byte) (v : Nat) : Statement (.wrreg a v) :=
  ⟨by simp [encode, Instr.opcode], by simp [encode, Instr.opcode, operandsOf, Instr.wf, fitsValue]⟩
theorem pwrreg (a : Byte) (v : Nat) : Statement (.pwrreg a v) :=
  ⟨by simp [encode, Instr.opcode], by simp [encode, Instr.opcode, operandsOf, Instr.wf, fitsValue]⟩
theorem setyear (v : Nat) : Statement (.setyear v) := value v rfl rfl of_decide_eq_true fun _ => rfl
theorem setmonth (v : Nat) : Statement (.setmonth v) := value v rfl rfl of_decide_eq_true fun _ => rfl
theorem setday (v : Nat) : Statement (.setday v) := value v rfl rfl of_decide_eq_true fun _ => rfl
theorem sethour (v : Nat) : Statement (.sethour v) := value v rfl rfl of_decide_eq_true fun _ => rfl
theorem setmin (v : Nat) : Statement (.setmin v) := value v rfl rfl of_decide_eq_true fun _ => rfl
theorem setsec (v : Nat) : Statement (.setsec v) := value v rfl rfl of_decide_eq_true fun _ => rfl
theorem setwday (v : Nat) : Statement (.setwday v) := value v rfl rfl of_decide_eq_true fun _ => rfl
theorem getyear : Statement .getyear := bare rfl rfl fun _ => rfl
theorem getmonth : Statement .getmonth := bare rfl rfl fun _ => rfl
theorem getday : Statement .getday := bare rfl rfl fun _ => rfl
theorem gethour : Statement .gethour := bare rfl rfl fun _ => rfl
theorem getmin : Statement .getmin := bare rfl rfl fun _ => rfl
theorem getsec : Statement .getsec := bare rfl rfl fun _ => rfl
theorem getwday : Statement .getwday := bare rfl rfl fun _ => rfl
theorem start : Statement .start := bare rfl rfl fun _ => rfl
theorem pause : Statement .pause := bare rfl rfl fun _ => rfl
theorem rdram (i : Nat) : Statement (.rdram i) :=
  ⟨by simp [encode, Instr.opcode], by simp [encode, Instr.opcode, operandsOf, Instr.wf, fitsIndex]⟩
theorem wrram (i v : Nat) : Statement (.wrram i v) :=
  ⟨by simp [encode, Instr.opcode], by
    simp only [Instr.wf, fitsIndex, fitsValue, Bool.and_eq_true, decide_eq_true_eq]
    rintro ⟨h1, h2⟩
    simp [encode, Instr.opcode, operandsOf, h1, h2]⟩
theorem setdatetime (y mo d w h mi s : Nat) : Statement (.setdatetime y mo d w h mi s) :=
  ⟨by simp [encode, Instr.opcode], by
    simp only [Instr.wf, fitsValue, Bool.and_eq_true, decide_eq_true_eq]
    rintro ⟨⟨⟨⟨⟨⟨h1, h2⟩, h3⟩, h4⟩, h5⟩, h6⟩, h7⟩
    simp [encode, Instr.opcode, operandsOf, h1, h2, h3, h4, h5, h6, h7]⟩

end Sys2Proof.Laws.OpcodeField
end

