-- ==== Sys2Proof/Laws/Registers.lean ====
section
/-!
SUPPORT. The registers of the reference peer after write frames, while no time passes in the chip (spec/20_memory.md R45, R48).
-/
namespace Sys2Proof.Machine

/-- At rest on the reference peer, outside every frame, with no free input left; its registers in canonical form. -/
structure Settled (s : State) : Prop where
  line : s.cfg.line = .referencePeer
  clk : s.clkOut = false
  ce : s.ceOut = false
  inside : s.peer.outside = false
  noFrame : s.peer.inframe = false
  static : s.peer.ticks = []
  wf : s.peer.mem.wf = true

theorem Settled.engaged {s : State} (h : Settled s) : Engaged s := ⟨h.line, h.inside⟩

@[simp] theorem Peer.tick_nil {p : Peer} (h : p.ticks = []) : p.tick = p := by simp [Peer.tick, h]

/-- A mapped write address is even. -/
theorem writeAddr_even {a : Byte} : isWriteAddr a.toNat = true → readDirection a = false := by revert a; decide

/-- A mapped write frame is not refused. -/
theorem Peer.write_inside {p : Peer} (mask v : Byte) {a : Byte} (hm : isWriteAddr a.toNat = true) :
    (p.write mask a v).outside = p.outside ∧ (p.write mask a v).ticks = p.ticks := by
  unfold Peer.write
  simp only [writeAddr_even hm, hm]
  split_ifs <;> first | contradiction | exact ⟨rfl, rfl⟩

/-- One mapped write frame: the registers after it. -/
theorem writeOps_registers (a : Byte) (src : ByteSrc) (s : State) (h : Settled s) (hm : isWriteAddr a.toNat = true) :
    Settled (performAll (writeOps a src) s) ∧
      ∀ x, (performAll (writeOps a src) s).peer.mem.read x =
        if x = a.toNat ∧ (a = 0x8E ∨ s.peer.mem.read 0x8E &&& s.cfg.wpMask = 0) then src.value s
        else s.peer.mem.read x := by
  have hw := writeOps_spec a src s
  have hp := writeOps_peer a src s h.engaged h.clk h.ce
  rw [Peer.tick_nil h.static] at hp
  obtain ⟨h1, h2⟩ := Peer.write_inside (p := s.peer) s.cfg.wpMask (src.value s) hm
  refine ⟨⟨by simpa using h.line, hw.clk, hw.ce, by rw [hp.outside, h1]; exact h.inside, hp.noFrame,
    by rw [hp.ticks, h2, h.static], by rw [hp.mem]; exact Peer.wf_write _ _ _ h.wf⟩, fun x => ?_⟩
  rw [hp.mem, Peer.read_write h.wf]
  simp only [writeAddr_even hm, hm, true_and, addrWp]
  rfl

/-- A protected write at a mapped address is always taken; protection is off afterwards. -/
theorem protectedOps_registers (a : Byte) (src : ByteSrc) (s : State) (h : Settled s) (hm : isWriteAddr a.toNat = true) :
    Settled (performAll (protectedOps a src) s) ∧
      ∀ x, (performAll (protectedOps a src) s).peer.mem.read x =
        if x = 0x8E then 0 else if x = a.toNat then src.value s else s.peer.mem.read x := by
  have wpm : isWriteAddr addrWp.toNat = true := by decide
  have l1 := (writeOps_spec addrWp (.lit 0) s).latch
  obtain ⟨a1, r1⟩ := writeOps_registers addrWp (.lit 0) s h wpm
  obtain ⟨a2, r2⟩ := writeOps_registers a src _ a1 hm
  obtain ⟨a3, r3⟩ := writeOps_registers addrWp (.lit 0) _ a2 wpm
  have run : performAll (protectedOps a src) s =
      performAll (writeOps addrWp (.lit 0)) (performAll (writeOps a src) (performAll (writeOps addrWp (.lit 0)) s)) := by
    simp [protectedOps, disableOps]
  rw [run]
  refine ⟨a3, fun x => ?_⟩
  have off : (performAll (writeOps addrWp (.lit 0)) s).peer.mem.read 0x8E = 0 := by rw [r1]; simp [addrWp, ByteSrc.value]
  rw [r3 x, r2 x, off, value_of_latch src l1]
  by_cases hx : x = 0x8E
  · rw [if_pos ⟨hx, .inl rfl⟩, if_pos hx]; rfl
  · refine (if_neg (fun h => hx h.1)).trans ?_
    rw [(r1 x).trans (if_neg (fun h => hx h.1)), if_neg hx]
    simp

/-! ### Time (R48) -/

/-- What a passage of time can change: one free input is used up; the write-protect and control registers, RAM and the halt bit keep their
values, and a halted chip keeps all of them. -/
structure Passed (p q : Peer) : Prop where
  ticks : q.ticks = p.ticks.tail
  outside : q.outside = p.outside
  fixed : ∀ x, x = 0x8E ∨ x = 0x90 ∨ 0xC0 ≤ x → q.mem.read x = p.mem.read x
  halt : haltBit (q.mem.read 0x80) = haltBit (p.mem.read 0x80)
  halted : haltBit (p.mem.read 0x80) = true → ∀ x, q.mem.read x = p.mem.read x

theorem Peer.tick_passed {p : Peer} (h : p.mem.wf = true) : Passed p p.tick := by
  unfold Peer.tick
  split
  · rename_i hn
    exact ⟨by rw [hn]; rfl, rfl, fun _ _ => rfl, rfl, fun _ _ => rfl⟩
  · rename_i t ts hn
    refine ⟨by rw [hn]; rfl, rfl, fun x hx => ?_, ?_, fun hh x => ?_⟩
    · rw [Tick.read_apply t h]
      split
      · rfl
      · rw [if_neg (by omega), if_neg (by omega), if_neg (by omega), if_neg (by omega), if_neg (by omega), if_neg (by omega),
          if_neg (by omega)]
    · have cleared : ∀ b : Byte, haltBit (clearHalt b) = false := by decide
      rw [Tick.read_apply t h]
      split
      · rfl
      · rename_i hh
        simp [cleared, hh]
    · rw [Tick.read_apply t h, if_pos hh]

end Sys2Proof.Machine
end

