-- ==== Sys2Proof/Laws/Step.lean ====
section
/-!
SUPPORT. Everything one step can do, and what the end of a command leaves alone.
-/
namespace Sys2Proof.Machine

/-- The end of a command leaves the engine idle and changes nothing but the port. -/
structure PortOnly (s t : State) : Prop where
  idle : t.active = none
  cfg : t.cfg = s.cfg
  clk : t.clkOut = s.clkOut
  ce : t.ceOut = s.ceOut
  dat : t.datOut = s.datOut
  oe : t.datOe = s.datOe
  seq : t.seq = s.seq
  shreg : t.shreg = s.shreg
  bitcnt : t.bitcnt = s.bitcnt
  latch : t.latch = s.latch
  cmds : t.cmds = s.cmds
  peer : t.peer = s.peer
  fifo : t.fifo = s.fifo
  answers : t.answers = s.answers
  draws : t.draws = s.draws
  ioFails : t.ioFails = s.ioFails
  log : t.log = s.log

theorem endWith_portOnly (st : Status) (r : Half) (s : State) : PortOnly s (s.endWith st r) := by constructor <;> rfl

theorem finish_portOnly (e : Ending) (s : State) : PortOnly s (finish e s) := by
  cases e <;> simp only [finish]
  case toBcd v => split <;> exact endWith_portOnly _ _ _
  all_goals exact endWith_portOnly _ _ _

/-- What a step does: it takes up the command in progress; or, idle, it stays as it is, or takes the next descriptor, which is a
command or illegal. It always answers a next state. -/
theorem step_cases (s : State) : ∃ t, step s = .next t ∧
    ((∃ i, s.active = some i ∧ t = runPlan (planOf i) s) ∨
      (s.active = none ∧ s.cmds = [] ∧ t = s) ∨
      (∃ i d ds, s.active = none ∧ s.cmds = d :: ds ∧ decode s.cfg.publicOnly d = .accepted i ∧
        t = runPlan (planOf i) (State.accept i { s with cmds := ds })) ∨
      (∃ r d ds, s.active = none ∧ s.cmds = d :: ds ∧ decode s.cfg.publicOnly d = .illegal r ∧
        t = State.takeIllegal { s with cmds := ds })) := by
  unfold step
  split
  · rename_i h; exact ⟨_, rfl, .inl ⟨_, h, rfl⟩⟩
  · rename_i h h'; exact ⟨_, rfl, .inr (.inl ⟨h, h', rfl⟩)⟩
  · rename_i d ds h h'
    split
    · rename_i i hd
      exact ⟨_, exec_idle i _ h, .inr (.inr (.inl ⟨i, d, ds, h, h', hd, rfl⟩))⟩
    · rename_i r hd
      exact ⟨_, rfl, .inr (.inr (.inr ⟨r, d, ds, h, h', hd, rfl⟩))⟩

/-- No command, whatever fails, changes a parameter or the host's queue, or takes an event back; it is over at its end. -/
theorem runPlan_kept (p : Plan) (s : State) :
    (runPlan p s).cfg = s.cfg ∧ (runPlan p s).cmds = s.cmds ∧ ∃ evs, (runPlan p s).log = evs ++ s.log :=
  runPlan_induct (P := fun s t => t.cfg = s.cfg ∧ t.cmds = s.cmds ∧ ∃ evs, t.log = evs ++ s.log)
    (fun _ => ⟨rfl, rfl, [], rfl⟩)
    (fun _ _ _ ⟨a, b, e, c⟩ ⟨a', b', e', c'⟩ => ⟨a'.trans a, b'.trans b, e' ++ e, by simp [c', c]⟩)
    (fun _ => ⟨rfl, rfl, [], rfl⟩) (fun op s => ⟨by simp, by simp, by cases op <;> exact ⟨[_], rfl⟩⟩)
    (fun _ => ⟨rfl, rfl, [_], rfl⟩) (fun _ _ _ => ⟨rfl, rfl, [], rfl⟩) p s

theorem runPlan_idle (p : Plan) (s : State) : (runPlan p s).active = none := by
  unfold runPlan
  split
  · exact (finish_portOnly _ _).idle
  · rfl

/-- A verdict is there to be taken where an operation fails. -/
theorem runOps_failed {ops : List PinOp} {s t : State} (h : runOps ops s = .failed t) :
    s.cfg.pinIoCanFail = true ∧ true ∈ s.ioFails ∧ ops ≠ [] := by
  induction ops generalizing s with
  | nil => cases h
  | cons op ops ih =>
    unfold runOps at h
    split at h
    · rename_i hf
      simp only [State.nextFails, Bool.and_eq_true] at hf
      refine ⟨hf.1, ?_, by simp⟩
      cases hi : s.ioFails with
      | nil => simp [hi] at hf
      | cons b l => simp [hi] at hf; simp [hf.2]
    · obtain ⟨a, b, -⟩ := ih h
      have a' : s.cfg.pinIoCanFail = true := by simpa using a
      refine ⟨a', ?_, by simp⟩
      simp [a'] at b
      exact List.mem_of_mem_tail b

end Sys2Proof.Machine
end

