-- ==== Sys2Proof/Laws/Trace.lean ====
section
/-!
SUPPORT. The trace of every command (spec/30_encoding.md R64): its frames, or its bits, as one function of the command and the byte it reads; and
its shape, which the opcode alone decides (R131).
-/
namespace Sys2Proof.Machine

/-- The end of a command appends no event. -/
@[simp] theorem finish_log (e : Ending) (s : State) : (finish e s).log = s.log := by
  cases e <;> simp only [finish] <;> try rfl
  split <;> rfl

/-- The frames of a command that has frames; `r` is the byte it reads, if it reads one. -/
def framesOf (r : Byte) : Instr → List Frame
  | .d2b _ | .b2d _ | .wrbyte _ | .rdbyte => []
  | .rdreg a => [.read a r]
  | .wrreg a v => [.write a (trunc8 v)]
  | .pwrreg a v => protectedFrames a (trunc8 v)
  | .setyear v => protectedFrames 0x8C (Field.setByte .year v)
  | .setmonth v => protectedFrames 0x88 (Field.setByte .month v)
  | .setday v => protectedFrames 0x86 (Field.setByte .day v)
  | .sethour v => protectedFrames 0x84 (Field.setByte .hour v)
  | .setmin v => protectedFrames 0x82 (Field.setByte .minute v)
  | .setsec v => protectedFrames 0x80 (Field.setByte .second v)
  | .setwday v => protectedFrames 0x8A (Field.setByte .weekday v)
  | .getyear => [.read 0x8D r]
  | .getmonth => [.read 0x89 r]
  | .getday => [.read 0x87 r]
  | .gethour => [.read 0x85 r]
  | .getmin => [.read 0x83 r]
  | .getsec => [.read 0x81 r]
  | .getwday => [.read 0x8B r]
  | .start => .read 0x81 r :: protectedFrames 0x80 (clearHalt r)
  | .pause => .read 0x81 r :: protectedFrames 0x80 (setHalt r)
  | .rdram i => [.read (ramReadAddr i) r]
  | .wrram i v => protectedFrames (ramWriteAddr i) (trunc8 v)
  | .setdatetime y mo d w h mi s => dateTimeFrames y mo d w h mi s

/-- The events of a command. -/
def eventsOf (r : Byte) : Instr → List PinEvent
  | .wrbyte v => txEvents (trunc8 v)
  | .rdbyte => rxEvents r
  | i => framesEvents (framesOf r i)

/-- START's and PAUSE's frames: the byte read goes into the protected write. -/
theorem readModifyWrite_log (src : ByteSrc) (f : Byte → Byte) (hf : ∀ u : State, src.value u = f u.latch) (s : State) :
    (performAll (readLatchOps 0x81 ++ protectedOps 0x80 src) s).log =
      (framesEvents (.read 0x81 (frameByte 0x81 s) :: protectedFrames 0x80 (f (frameByte 0x81 s)))).reverse ++ s.log := by
  obtain ⟨h, hl⟩ := readLatchOps_spec 0x81 s
  have h2 := protectedOps_spec 0x80 src (performAll (readLatchOps 0x81) s)
  rw [hf, hl] at h2
  rw [performAll_append, h2.log, h.log]
  simp [framesEvents]

/-- The trace of every command, performed to its end. -/
theorem planOf_log (i : Instr) (s : State) : ∃ r, (performAll (planOf i).ops s).log = (eventsOf r i).reverse ++ s.log := by
  cases i
  case d2b v => exact ⟨0, rfl⟩
  case b2d v => exact ⟨0, rfl⟩
  case wrbyte v => exact ⟨0, (sendByte_spec (.lit (trunc8 v)) s).log⟩
  case rdbyte => exact ⟨_, (receiveByte_spec s).log⟩
  case setdatetime => exact ⟨0, (dateTimeOps_spec ..).log⟩
  case start => exact ⟨_, readModifyWrite_log .latchCleared clearHalt (fun _ => rfl) s⟩
  case pause => exact ⟨_, readModifyWrite_log .latchSet setHalt (fun _ => rfl) s⟩
  case wrreg a v => exact ⟨0, (writeOps_spec a (.lit (trunc8 v)) s).log⟩
  case pwrreg a v => exact ⟨0, (protectedOps_spec a (.lit (trunc8 v)) s).log⟩
  case wrram k v => exact ⟨0, (protectedOps_spec (ramWriteAddr k) (.lit (trunc8 v)) s).log⟩
  case setyear v => exact ⟨0, (protectedOps_spec 0x8C (.lit (Field.setByte .year v)) s).log⟩
  case setmonth v => exact ⟨0, (protectedOps_spec 0x88 (.lit (Field.setByte .month v)) s).log⟩
  case setday v => exact ⟨0, (protectedOps_spec 0x86 (.lit (Field.setByte .day v)) s).log⟩
  case sethour v => exact ⟨0, (protectedOps_spec 0x84 (.lit (Field.setByte .hour v)) s).log⟩
  case setmin v => exact ⟨0, (protectedOps_spec 0x82 (.lit (Field.setByte .minute v)) s).log⟩
  case setsec v => exact ⟨0, (protectedOps_spec 0x80 (.lit (Field.setByte .second v)) s).log⟩
  case setwday v => exact ⟨0, (protectedOps_spec 0x8A (.lit (Field.setByte .weekday v)) s).log⟩
  case rdreg a => exact ⟨_, (readOps_spec a s).1.log⟩
  case rdram k => exact ⟨_, (readOps_spec (ramReadAddr k) s).1.log⟩
  case getyear => exact ⟨_, (readOps_spec 0x8D s).1.log⟩
  case getmonth => exact ⟨_, (readOps_spec 0x89 s).1.log⟩
  case getday => exact ⟨_, (readOps_spec 0x87 s).1.log⟩
  case gethour => exact ⟨_, (readOps_spec 0x85 s).1.log⟩
  case getmin => exact ⟨_, (readOps_spec 0x83 s).1.log⟩
  case getsec => exact ⟨_, (readOps_spec 0x81 s).1.log⟩
  case getwday => exact ⟨_, (readOps_spec 0x8B s).1.log⟩

/-- A ready engine performs a command's events and no others. -/
theorem exec_trace (i : Instr) (s : State) (hs : Ready s) :
    ∃ t r, exec i s = .next t ∧ t.trace = s.trace ++ eventsOf r i := by
  obtain ⟨r, hr⟩ := planOf_log i (s.accept i)
  refine ⟨_, r, exec_reliable i s hs.idle hs.reliable, ?_⟩
  simp only [State.trace, finish_log, hr]
  simp

/-! ### Shapes (R131) -/

/-- A frame of the same kind with address and data 0. -/
def Frame.blank : Frame → Frame
  | .write _ _ => .write 0 0
  | .read _ _ => .read 0 0

@[simp] theorem txEvents_shape (b : Byte) : (txEvents b).map PinEvent.shape = txEvents 0 := rfl
@[simp] theorem rxEvents_shape (b : Byte) : (rxEvents b).map PinEvent.shape = rxEvents 0 := rfl

theorem Frame.events_shape (f : Frame) : f.events.map PinEvent.shape = f.blank.events := by
  cases f <;> simp [Frame.events, Frame.blank, PinEvent.shape]

/-- The shape of frames depends on their kinds alone. -/
theorem framesEvents_shape (fs : List Frame) : (framesEvents fs).map PinEvent.shape = framesEvents (fs.map Frame.blank) := by
  simp only [framesEvents, List.map_flatMap, Frame.events_shape, List.flatMap_map]

/-- The opcode alone decides the shape of a command's trace. -/
theorem eventsOf_shape (r r' : Byte) (i i' : Instr) (h : i.opcode = i'.opcode) :
    (eventsOf r i).map PinEvent.shape = (eventsOf r' i').map PinEvent.shape := by
  cases i <;> cases i' <;> first
    | (exfalso; revert h; simp only [Instr.opcode]; decide)
    | (simp only [eventsOf, txEvents_shape, rxEvents_shape, framesEvents_shape]; done)
    | (simp only [eventsOf, framesEvents_shape]; rfl)

/-- Shapes keep the number of reads. -/
theorem reads_shape (evs : List PinEvent) :
    ((evs.map PinEvent.shape).filter PinEvent.isRead).length = (evs.filter PinEvent.isRead).length := by
  induction evs with
  | nil => rfl
  | cons e es ih =>
    cases e with
    | r l => simp only [List.map_cons, List.filter_cons, PinEvent.shape, PinEvent.isRead, if_true, List.length_cons, ih]
    | w p l => cases p <;> simp [PinEvent.shape, PinEvent.isRead, ih]

/-- Shapes keep the number of clock and chip-select writes. -/
theorem count_shape (evs : List PinEvent) (p : Pin) (l : Level) (hp : p ≠ .dat) :
    (evs.map PinEvent.shape).count (.w p l) = evs.count (.w p l) := by
  induction evs with
  | nil => rfl
  | cons e es ih =>
    simp only [List.map_cons, List.count_cons, ih]
    congr 1
    cases e with
    | r l => simp [PinEvent.shape]
    | w q l => cases q <;> cases p <;> simp [PinEvent.shape] at *

end Sys2Proof.Machine
end

