-- ==== Sys2Proof/Tests/Slice0.lean ====
section
/-!
SUPPORT. The model's own tests: well-formedness, decoding, one step of every command (expected values from spec/95_test_vectors.md), and for every
obligation with hypotheses a witness that meets them.
-/
namespace Sys2Proof.Tests

open Sys2Proof.Machine

/-! ### Well-formedness: each check refuses an ill-formed term -/

theorem test_wf_value_fits : (Instr.setyear 65535).wf = true := by decide
theorem test_wf_value_too_large : (Instr.setyear 65536).wf = false := by decide
theorem test_wf_byte_operand_too_large : (Instr.wrreg 0x80 65536).wf = false := by decide
theorem test_wf_index_fits : (Instr.rdram 255).wf = true := by decide
theorem test_wf_index_too_large : (Instr.rdram 256).wf = false := by decide
theorem test_wf_wrram_index_too_large : (Instr.wrram 256 0).wf = false := by decide
theorem test_wf_wrram_value_too_large : (Instr.wrram 0 65536).wf = false := by decide
theorem test_wf_setdatetime_each_field :
    [Instr.setdatetime 65536 0 0 0 0 0 0, .setdatetime 0 65536 0 0 0 0 0, .setdatetime 0 0 65536 0 0 0 0,
      .setdatetime 0 0 0 65536 0 0 0, .setdatetime 0 0 0 0 65536 0 0, .setdatetime 0 0 0 0 0 65536 0,
      .setdatetime 0 0 0 0 0 0 65536].all (fun i => i.wf == false) = true := by decide

/-! ### Decoding: a descriptor of every command, written out from R60 to R62 (many are those of vector B5.1) -/

theorem test_decode_d2b : decode false 0x0100002D000000000000000000000000 = .accepted (.d2b 45) := by decide
theorem test_decode_b2d : decode false 0x02000023000000000000000000000000 = .accepted (.b2d 0x23) := by decide
theorem test_decode_wrbyte : decode false 0x100000A5000000000000000000000000 = .accepted (.wrbyte 0xA5) := by decide
theorem test_decode_rdbyte : decode false 0x11000000000000000000000000000000 = .accepted .rdbyte := by decide
theorem test_decode_rdreg : decode false 0x20810000000000000000000000000000 = .accepted (.rdreg 0x81) := by decide
theorem test_decode_wrreg : decode false 0x21CA0011000000000000000000000000 = .accepted (.wrreg 0xCA 0x11) := by decide
theorem test_decode_pwrreg : decode false 0x22840010000000000000000000000000 = .accepted (.pwrreg 0x84 0x10) := by decide
theorem test_decode_setyear : decode false 0x300007CF000000000000000000000000 = .accepted (.setyear 1999) := by decide
theorem test_decode_setmonth : decode false 0x3100000D000000000000000000000000 = .accepted (.setmonth 13) := by decide
theorem test_decode_setday : decode false 0x32000020000000000000000000000000 = .accepted (.setday 32) := by decide
theorem test_decode_sethour : decode false 0x33000018000000000000000000000000 = .accepted (.sethour 24) := by decide
theorem test_decode_setmin : decode false 0x3400003D000000000000000000000000 = .accepted (.setmin 61) := by decide
theorem test_decode_setsec : decode false 0x3500002D000000000000000000000000 = .accepted (.setsec 45) := by decide
theorem test_decode_setwday : decode false 0x36000008000000000000000000000000 = .accepted (.setwday 8) := by decide
theorem test_decode_getyear : decode false 0x40000000000000000000000000000000 = .accepted .getyear := by decide
theorem test_decode_getmonth : decode false 0x41000000000000000000000000000000 = .accepted .getmonth := by decide
theorem test_decode_getday : decode false 0x42000000000000000000000000000000 = .accepted .getday := by decide
theorem test_decode_gethour : decode false 0x43000000000000000000000000000000 = .accepted .gethour := by decide
theorem test_decode_getmin : decode false 0x44000000000000000000000000000000 = .accepted .getmin := by decide
/-- Vector B5.2: the fields that GETSEC does not use are ignored. -/
theorem test_decode_getsec : decode false 0x45FFFFFFFFFFFFFFFFFFFFFFFFFFFFFF = .accepted .getsec := by decide
theorem test_decode_getwday : decode false 0x46000000000000000000000000000000 = .accepted .getwday := by decide
theorem test_decode_start : decode false 0x50000000000000000000000000000000 = .accepted .start := by decide
theorem test_decode_pause : decode false 0x51000000000000000000000000000000 = .accepted .pause := by decide
theorem test_decode_rdram : decode false 0x60240000000000000000000000000000 = .accepted (.rdram 36) := by decide
theorem test_decode_wrram : decode false 0x6105007F000000000000000000000000 = .accepted (.wrram 5 0x7F) := by decide
theorem test_decode_setdatetime :
    decode false 0x700007E80003000F0005000A001E002D = .accepted (.setdatetime 2024 3 15 5 10 30 45) := by decide
/-- Vector B5.3. -/
theorem test_decode_illegal :
    [0x00000000000000000000000000000000, 0x03000000000000000000000000000000, 0x37000000000000000000000000000000,
      0xFF000000000000000000000000000000].all (fun d => decode false d == .illegal (.reservedOpcode (opField d))) = true := by
  decide
/-- Vector B5.3: with `PUBLIC_ONLY`, 0x22 is illegal while 0x30 stays legal. -/
theorem test_decode_public_only :
    decode true 0x22840010000000000000000000000000 = .illegal (.internalOpcode .pwrreg) ∧
      decode true 0x300007CF000000000000000000000000 = .accepted (.setyear 1999) := by decide
/-- The table's numbering is the descriptor's (R60). -/
theorem test_decode_table_word : decodeTableWord 128 0x20810000000000000000000000000000 = some (.rdreg 0x81) := by decide

/-! ### States -/

/-- The engine after reset, on a line. -/
def onLine (l : Line) : State := { State.reset with cfg := { State.reset.cfg with line := l } }

/-- The engine after reset, on the reference peer with these registers. -/
def onChip (m : Memory) : State :=
  { State.reset with cfg := { State.reset.cfg with line := .referencePeer }, peer := { Peer.blank with mem := m } }

/-- An idle engine in the general model, with these answers to come. -/
def answering (ls : List Level) : State := { State.reset with answers := ls }

/-- The command ends done, with this trace and this result. -/
def ends (i : Instr) (s : State) (evs : List PinEvent) (r : Half) : Bool :=
  match exec i s with
  | .next t => t.trace == s.trace ++ evs && t.status == .done && t.result == r && t.active == none
  | .fault _ => false
  | .refused _ => false

/-- What a command leaves, if it answers a next state. -/
def after (i : Instr) (s : State) : Option State :=
  match exec i s with
  | .next t => some t
  | .fault _ => none
  | .refused _ => none

/-- What a command leaves in one register of the chip. -/
def regAfter (i : Instr) (s : State) (a : Nat) : Option Byte := (after i s).map fun t => t.reg a

/-! ### One step of every command -/

set_option maxRecDepth 8000

/-- B1.1. -/
theorem test_d2b : ends (.d2b 59) State.reset [] 0x59 = true := by decide
/-- B1.1: above 99, refused. -/
theorem test_d2b_refused :
    (after (.d2b 100) State.reset).map (fun t => (t.status, t.result, t.trace)) = some (.refused, 0, State.reset.trace) := by
  decide
/-- B1.2, an invalid BCD byte. -/
theorem test_b2d : ends (.b2d 0xC5) State.reset [] 125 = true := by decide
/-- B1.3: the low byte alone counts. -/
theorem test_b2d_low_byte : ends (.b2d 0x0123) State.reset [] 23 = true := by decide
/-- B2.2, written out, and its end state; B2.7. -/
theorem test_wrbyte : ends (.wrbyte 0x01A5) State.reset
    [.w .dat true, .w .clk true, .w .clk false, .w .dat false, .w .clk true, .w .clk false,
      .w .dat true, .w .clk true, .w .clk false, .w .dat false, .w .clk true, .w .clk false,
      .w .dat false, .w .clk true, .w .clk false, .w .dat true, .w .clk true, .w .clk false,
      .w .dat false, .w .clk true, .w .clk false, .w .dat true, .w .clk true, .w .clk false] 0 = true := by decide
/-- B2.3: least significant bit first. -/
theorem test_wrbyte_order :
    (after (.wrbyte 0x8E) State.reset).map (fun t => t.trace.filter fun e => e == .w .dat false || e == .w .dat true) =
      some [.w .dat false, .w .dat true, .w .dat true, .w .dat true, .w .dat false, .w .dat false, .w .dat false, .w .dat true] := by
  decide
/-- B2.5 in the form of B2.4: sampled before the pulse. -/
theorem test_rdbyte : ends .rdbyte (answering [false, true, true, true, false, false, false, true])
    [.r false, .w .clk true, .w .clk false, .r true, .w .clk true, .w .clk false,
      .r true, .w .clk true, .w .clk false, .r true, .w .clk true, .w .clk false,
      .r false, .w .clk true, .w .clk false, .r false, .w .clk true, .w .clk false,
      .r false, .w .clk true, .w .clk false, .r true, .w .clk true, .w .clk false] 0x8E = true := by decide
/-- B2.6: the FIFO loopback and the mirror loopback. -/
theorem test_rdbyte_loopbacks :
    ((after (.wrbyte 0xA5) (onLine .fifoLoopback)).bind fun t => (after .rdbyte t).map State.result) = some 0xA5 ∧
      ((after (.wrbyte 0x7F) (onLine .mirrorLoopback)).bind fun t => (after .rdbyte t).map State.result) = some 0x00 := by
  decide
/-- B3.1. -/
theorem test_rdreg : ends (.rdreg 0x81) (onChip [(0x80, 0x45)])
    ([.w .ce true] ++ txEvents 0x81 ++ rxEvents 0x45 ++ [.w .ce false]) 0x45 = true := by decide
/-- B3.7: the reference peer refuses a read frame at an even address; the answers are draws. -/
theorem test_rdreg_even : (after (.rdreg 0x80) { onChip [(0x80, 0x45)] with answers := List.replicate 8 true }).map
    (fun t => (t.result, t.peer.outside)) = some (0xFF, true) := by decide
/-- B3.2. -/
theorem test_wrreg : ends (.wrreg 0x8E 0x00) (onChip [(0x8E, 0x80)])
      ([.w .ce true] ++ txEvents 0x8E ++ txEvents 0x00 ++ [.w .ce false]) 0 = true ∧
    regAfter (.wrreg 0x8E 0x00) (onChip [(0x8E, 0x80)]) 0x8E = some 0 := by decide
/-- B3.4: rejected by a protected peer, without a sign of it. -/
theorem test_wrreg_protected :
    (after (.wrreg 0x84 0x10) (onChip [(0x84, 0x12), (0x8E, 0x80)])).map (fun t => (t.status, t.reg 0x84)) =
      some (.done, 0x12) := by decide
/-- B3.3. -/
theorem test_pwrreg : ends (.pwrreg 0x84 0x10) (onChip [(0x8E, 0x80)])
      (framesEvents [.write 0x8E 0x00, .write 0x84 0x10, .write 0x8E 0x00]) 0 = true ∧
    regAfter (.pwrreg 0x84 0x10) (onChip [(0x8E, 0x80)]) 0x84 = some 0x10 := by decide
/-- B3.5. -/
theorem test_pwrreg_wp : regAfter (.pwrreg 0x8E 0x80) (onChip [(0x8E, 0x80)]) 0x8E = some 0x00 := by decide
/-- B4.1. -/
theorem test_setyear : ends (.setyear 65535) State.reset (framesEvents (protectedFrames 0x8C 0x35)) 0 = true := by decide
/-- B4.1. -/
theorem test_setmonth : ends (.setmonth 12) State.reset (framesEvents (protectedFrames 0x88 0x12)) 0 = true := by decide
/-- B4.1. -/
theorem test_setday : ends (.setday 33) State.reset (framesEvents (protectedFrames 0x86 0x01)) 0 = true := by decide
/-- B4.1. -/
theorem test_sethour : ends (.sethour 23) State.reset (framesEvents (protectedFrames 0x84 0x23)) 0 = true := by decide
/-- B4.1. -/
theorem test_setmin : ends (.setmin 59) State.reset (framesEvents (protectedFrames 0x82 0x59)) 0 = true := by decide
/-- B4.1. -/
theorem test_setsec : ends (.setsec 60) State.reset (framesEvents (protectedFrames 0x80 0x00)) 0 = true := by decide
/-- B4.1. -/
theorem test_setwday : ends (.setwday 7) State.reset (framesEvents (protectedFrames 0x8A 0x07)) 0 = true := by decide
/-- B4.3. -/
theorem test_getyear : ends .getyear (onChip [(0x8C, 0xFF)]) (framesEvents [.read 0x8D 0xFF]) 2165 = true := by decide
/-- B4.3. -/
theorem test_getmonth : ends .getmonth (onChip [(0x88, 0xFF)]) (framesEvents [.read 0x89 0xFF]) 165 = true := by decide
/-- B4.3. -/
theorem test_getday : ends .getday (onChip [(0x86, 0x31)]) (framesEvents [.read 0x87 0x31]) 31 = true := by decide
/-- B4.3. -/
theorem test_gethour : ends .gethour (onChip [(0x84, 0x92)]) (framesEvents [.read 0x85 0x92]) 20 = true := by decide
/-- B4.3. -/
theorem test_getmin : ends .getmin (onChip [(0x82, 0xFF)]) (framesEvents [.read 0x83 0xFF]) 45 = true := by decide
/-- B4.3: GETSEC on a paused chip decodes the halt bit too. -/
theorem test_getsec : ends .getsec (onChip [(0x80, 0xD9)]) (framesEvents [.read 0x81 0xD9]) 19 = true := by decide
/-- B4.3. -/
theorem test_getwday : ends .getwday (onChip [(0x8A, 0x07)]) (framesEvents [.read 0x8B 0x07]) 7 = true := by decide
/-- B4.4. -/
theorem test_start : ends .start (onChip [(0x80, 0xFF), (0x8E, 0x80)])
    (framesEvents [.read 0x81 0xFF, .write 0x8E 0x00, .write 0x80 0x7F, .write 0x8E 0x00]) 0 = true := by decide
/-- B4.4, and A5. -/
theorem test_pause : ends .pause (onChip [(0x80, 0x45), (0x8E, 0x80)])
      (framesEvents [.read 0x81 0x45, .write 0x8E 0x00, .write 0x80 0xC5, .write 0x8E 0x00]) 0 = true ∧
    regAfter .pause (onChip [(0x80, 0x45), (0x8E, 0x80)]) 0x80 = some 0xC5 := by decide
/-- B4.5. -/
theorem test_rdram : ends (.rdram 255) (onChip [(0xCE, 0x5A)]) (framesEvents [.read 0xCF 0x5A]) 0x5A = true := by decide
/-- B4.5. -/
theorem test_wrram : ends (.wrram 30 0x1FF) (onChip [(0x8E, 0x80)]) (framesEvents (protectedFrames 0xFC 0xFF)) 0 = true := by
  decide
/-- A7: slot 31 is slot 0. -/
theorem test_wrram_wraps : regAfter (.wrram 31 0xAA) (onChip [(0x8E, 0x80)]) 0xC0 = some 0xAA := by decide
/-- Program P1: the 21 frames of the bulk set. -/
theorem test_setdatetime : ends (.setdatetime 2024 3 15 5 10 30 45) State.reset
    (framesEvents [.write 0x8E 0x00, .write 0x8C 0x24, .write 0x8E 0x00, .write 0x8E 0x00, .write 0x88 0x03, .write 0x8E 0x00,
      .write 0x8E 0x00, .write 0x86 0x15, .write 0x8E 0x00, .write 0x8E 0x00, .write 0x8A 0x05, .write 0x8E 0x00,
      .write 0x8E 0x00, .write 0x84 0x10, .write 0x8E 0x00, .write 0x8E 0x00, .write 0x82 0x30, .write 0x8E 0x00,
      .write 0x8E 0x00, .write 0x80 0x45, .write 0x8E 0x00]) 0 = true := by decide

/-! ### The step, reset and failures -/

/-- B5.3: an illegal descriptor leaves nothing but `STATUS` 1. -/
theorem test_step_illegal :
    (match step (State.reset.withFetchWord 128 0xFF000000000000000000000000000000) with
      | .next t => t == { State.reset with status := .illegal, reports := [{ status := .illegal, result := 0 }] }
      | .fault _ => false
      | .refused _ => false) = true := by decide
/-- A placed descriptor is the one that runs (B1.1). -/
theorem test_step_runs :
    (match step (State.reset.withFetchWord 128 0x0100002D000000000000000000000000) with
      | .next t => t.result == 0x45 && t.cmds == []
      | .fault _ => false
      | .refused _ => false) = true := by decide
/-- B5.4. -/
theorem test_create_trace : (match create [] 4 5 6 State.reset with
    | .next t => t.trace == [.w .clk false, .w .ce false]
    | .fault _ => false
    | .refused _ => false) = true := by decide
/-- R164: on its own pins an engine is constructed again when it is idle, and not while its command is in progress. -/
theorem test_create_again :
    (match create [] 0 1 2 State.reset, create [] 0 1 2 (State.reset.accept .start) with
      | .next t, .refused .pinsShared => t.active == none
      | _, _ => false) = true := by decide
/-- R142: the fourth pin operation fails; three events, then the cleanup. -/
theorem test_io_error : (after (.rdreg 0x81) { State.reset with
      cfg := { State.reset.cfg with pinIoCanFail := true }, ioFails := [false, false, false, true] }).map
      (fun t => (t.status, t.result, t.log.take 4)) =
    some (.ioError, 0, [.w .ce false, .w .clk true, .w .dat true, .w .ce true]) := by decide

/-! ### Witnesses: for each obligation with hypotheses, a state and operands that meet them -/

/-- The reference peer, protected, with a paused clock. -/
def chip : State := onChip [(0x80, 0xC5), (0x8E, 0x80)]

/-- The reference peer, unprotected, with a running clock at 59 seconds. -/
def runningChip : State := onChip [(0x80, 0x59)]

/-- Time will pass in the chip: one tick is to come. -/
def tickingChip (m : Memory) : State :=
  { onChip m with peer := { Peer.blank with
      mem := m
      ticks := [{ seconds := 0xFF, minutes := 0x01, hour := 0x02, day := 0x03, month := 0x04, weekday := 0x05, year := 0x06 }] } }

/-- An engine whose pin operations can fail, with these verdicts to come. -/
def failing (vs : List Bool) : State := { State.reset with cfg := { State.reset.cfg with pinIoCanFail := true }, ioFails := vs }

/-- An engine that accepts the public commands only, with one descriptor at its port. -/
def publicEngine (d : Descriptor) : State :=
  { State.reset with cfg := { State.reset.cfg with publicOnly := true }, cmds := [d] }

theorem ready_reset : Ready State.reset := ⟨rfl, rfl⟩
theorem atRest_reset : AtRest State.reset := ⟨ready_reset, rfl, rfl⟩
theorem onStaticPeer_chip : OnStaticPeer chip := ⟨⟨⟨⟨rfl, rfl⟩, rfl, rfl⟩, rfl, rfl, rfl⟩, rfl⟩
theorem onStaticPeer_runningChip : OnStaticPeer runningChip := ⟨⟨⟨⟨rfl, rfl⟩, rfl, rfl⟩, rfl, rfl, rfl⟩, rfl⟩
theorem memInv_chip : MemInv chip := rfl
theorem onPeer_tickingChip (m : Memory) : OnPeer (tickingChip m) := ⟨⟨⟨rfl, rfl⟩, rfl, rfl⟩, rfl, rfl, rfl⟩

/-- Every boundary of the reserved ranges of R66 is reserved, and its neighbours are assigned (R62). -/
theorem test_reserved_boundaries :
    [(0x00 : Byte), 0x03, 0x0F, 0x12, 0x1F, 0x23, 0x2F, 0x37, 0x3F, 0x47, 0x4F, 0x52, 0x5F, 0x62, 0x6F, 0x71, 0xFF].all
        (fun c => Opcode.ofCode c == none) = true ∧
      [(0x01 : Byte), 0x02, 0x10, 0x11, 0x20, 0x22, 0x30, 0x36, 0x40, 0x46, 0x50, 0x51, 0x60, 0x61, 0x70].all
        (fun c => (Opcode.ofCode c).isSome) = true := by decide

theorem witness_DecodeOfEncodeIsTheCommand :
    (Instr.wrram 255 65535).wf = true ∧ (Instr.setdatetime 65535 65535 65535 65535 65535 65535 65535).wf = true ∧
      (Instr.pwrreg 0xFF 65535).wf = true := by decide

theorem witness_DecoderReadsTheOpcodeAlone :
    Opcode.pwrreg.selects 0x22FFFFFFFFFFFFFFFFFFFFFFFFFFFFFF = true ∧ Opcode.pwrreg.internal = true ∧
      Opcode.getsec.selects 0x45FFFFFFFFFFFFFFFFFFFFFFFFFFFFFF = true ∧ Opcode.getsec.internal = false ∧
      Opcode.all.all (fun o => !o.selects 0x71000000000000000000000000000000) = true := by decide

theorem witness_UnusedFieldsAreIgnored :
    (opField 0x20810000000000000000000000000000 = Opcode.rdreg.code ∧ opField 0x2081FFFF000000000000000000000001 = Opcode.rdreg.code ∧
      aField 0x20810000000000000000000000000000 = aField 0x2081FFFF000000000000000000000001) ∧
    (opField 0x30AA07CF000000000000000000000000 = Opcode.setyear.code ∧
      vField 0 0x30AA07CF000000000000000000000000 = vField 0 0x300007CFFFFF00000000000000000000) ∧
    (∀ k, 1 ≤ k → k ≤ 6 → vField k 0x70AA07E80003000F0005000A001E002D = vField k 0x700007E80003000F0005000A001E002D) := by
  refine ⟨by decide, by decide, fun k h1 h2 => ?_⟩
  interval_cases k <;> decide

theorem witness_IllegalDescriptorOnlyReportsIllegal :
    ((State.reset.withFetchWord 128 0x71000000000000000000000000000000).active = none ∧
      (State.reset.withFetchWord 128 0x71000000000000000000000000000000).cmds = [0x71000000000000000000000000000000] ∧
      0x71 ≤ opField 0x71000000000000000000000000000000) ∧
    ((publicEngine 0x22840010000000000000000000000000).active = none ∧
      (publicEngine 0x22840010000000000000000000000000).cmds = [0x22840010000000000000000000000000] ∧
      (publicEngine 0x22840010000000000000000000000000).cfg.publicOnly = true ∧
      opField 0x22840010000000000000000000000000 ∈ [(0x01 : Byte), 0x02, 0x10, 0x11, 0x20, 0x21, 0x22]) := by decide

theorem witness_StepRunsTheDecodedCommand :
    let s := State.reset.withFetchWord 128 0x50000000000000000000000000000000
    s.active = none ∧ s.cmds = [0x50000000000000000000000000000000] ∧
      decode s.cfg.publicOnly 0x50000000000000000000000000000000 = .accepted .start := by decide

theorem witness_PlacedDescriptorRunsNext :
    decode State.reset.cfg.publicOnly (BitVec.ofNat 128 (0x6105007F000000000000000000000000 % 2 ^ 128)) =
      .accepted (.wrram 5 0x7F) := by decide

theorem witness_IdleEngineStaysAsItIs : State.reset.active = none ∧ State.reset.cmds = [] := ⟨rfl, rfl⟩

theorem witness_BusyPortAcceptsNothing : (State.reset.accept .start).busy = true := rfl

/-- Done, refused at the first value above 99, and io-error all occur. -/
theorem witness_EveryCommandEndsWithOneReport :
    (State.reset.active = none ∧ (failing [true]).active = none) ∧
    (after (.d2b 99) State.reset).map State.status = some .done ∧
    (after (.d2b 100) State.reset).map State.status = some .refused ∧
    (after .rdbyte (failing [true])).map State.status = some .ioError := by decide

theorem witness_CommandIsItsPinEvents : (failing [false, true]).active = none := rfl

theorem witness_StepResumesTheCommandInProgress :
    State.reset.active = none ∧ (eventSteps 23 (State.reset.accept .rdbyte)).active = some .rdbyte := by decide

theorem witness_EachPinEventAdvancesSeqByOne :
    let s := eventSteps 49 (State.reset.accept (.wrreg 0x80 0))
    s.active = some (.wrreg 0x80 0) ∧ s.seq < eventCount (.wrreg 0x80 0) ∧ s.cfg.pinIoCanFail = false ∧
      s.seq + 1 = eventCount (.wrreg 0x80 0) := by decide

theorem witness_D2bReturnsTheBcdByte :
    State.reset.active = none ∧ State.reset.cfg.d2bWraps = false ∧
      ({ State.reset with cfg := { State.reset.cfg with d2bWraps := true } } : State).active = none := by decide

theorem witness_B2dReturnsTheValue : State.reset.active = none ∧ opField 0x02FF0023FFFFFFFFFFFFFFFFFFFFFFFF = 0x02 := by decide

theorem witness_CodecIsItsOwnInverse :
    (State.reset.active = none ∧ ∃ t, exec (.d2b 99) State.reset = .next t) ∧
    (((0x99 : Byte) >>> 4).toNat ≤ 9 ∧ ((0x99 : Byte) &&& 0x0F).toNat ≤ 9 ∧
      ∃ t, exec (.b2d (0x99 : Byte).toNat) State.reset = .next t) :=
  ⟨⟨rfl, _, rfl⟩, by decide, by decide, _, rfl⟩

theorem witness_WrbyteSendsItsByte : Ready State.reset ∧ State.reset.peer.inframe = false := ⟨ready_reset, rfl⟩

theorem witness_RdbyteReturnsTheByteRead : Ready State.reset ∧ State.reset.peer.inframe = false := ⟨ready_reset, rfl⟩

theorem witness_RdbyteOfDraws :
    (Ready State.reset ∧ State.reset.cfg.line = .general) ∧
    (Ready chip ∧ chip.cfg.line = .referencePeer ∧ chip.peer.inframe = false) ∧
    (Ready (onLine .referencePeer) ∧
      ({ onLine .referencePeer with peer := Peer.blank.refuse } : State).peer.outside = true) :=
  ⟨⟨ready_reset, rfl⟩, ⟨⟨rfl, rfl⟩, rfl, rfl⟩, ⟨rfl, rfl⟩, rfl⟩

theorem witness_LoopbackReturnsTheByteSent :
    (AtRest (onLine .fifoLoopback) ∧ (onLine .fifoLoopback).fifo = [] ∧ (onLine .fifoLoopback).cfg.line = .fifoLoopback ∧
      ∃ t u, exec (.wrbyte 0xA5) (onLine .fifoLoopback) = .next t ∧ exec .rdbyte t = .next u) ∧
    (AtRest (onLine .mirrorLoopback) ∧ (onLine .mirrorLoopback).cfg.line = .mirrorLoopback ∧
      ∃ t u, exec (.wrbyte 0xA5) (onLine .mirrorLoopback) = .next t ∧ exec .rdbyte t = .next u) :=
  ⟨⟨⟨⟨rfl, rfl⟩, rfl, rfl⟩, rfl, rfl, _, _, rfl, rfl⟩, ⟨⟨rfl, rfl⟩, rfl, rfl⟩, rfl, _, _, rfl, rfl⟩

theorem witness_RdregIsOneReadFrame : Ready State.reset := ready_reset
theorem witness_WrregIsOneWriteFrame : Ready State.reset := ready_reset
theorem witness_PwrregIsTheProtectedWrite : Ready State.reset := ready_reset
theorem witness_SettersWriteTheWrappedField : Ready State.reset := ready_reset
theorem witness_GettersReturnTheDecodedField : Ready State.reset := ready_reset
theorem witness_GetterResultsAreInRange : Ready State.reset := ready_reset
theorem witness_StartAndPauseChangeTheHaltBitAlone : Ready State.reset := ready_reset
theorem witness_FrameLayouts : Ready State.reset := ready_reset
theorem witness_RdramReadsItsSlot : Ready State.reset := ready_reset
theorem witness_WrramWritesItsSlot : Ready State.reset := ready_reset
theorem witness_RamSlotAddresses : Ready State.reset := ready_reset
theorem witness_SetdatetimeWritesSevenFields : Ready State.reset := ready_reset
theorem witness_TraceLengthsAreFixedByTheOpcode : Ready State.reset := ready_reset

theorem witness_ReadFramesOfDraws :
    (Ready State.reset ∧ State.reset.cfg.line = .general ∧ ramReadAddr 31 = 0xC1 ∧ readAddr Field.second.writeAddr = 0x81 ∧
      Field.second.getCmd = .getsec) ∧
    (Ready (onLine .referencePeer) ∧ (onLine .referencePeer).cfg.line = .referencePeer ∧
      ({ onLine .referencePeer with peer := Peer.blank.refuse } : State).peer.outside = true) :=
  ⟨⟨ready_reset, rfl, by decide, by decide, rfl⟩, ⟨rfl, rfl⟩, rfl, rfl⟩

theorem witness_SetterOperandsWrap :
    Ready State.reset ∧ (Field.weekday, 8, (0x8A : Byte)) ∈ [(Field.year, 100, (0x8C : Byte)), (.month, 13, 0x88), (.day, 32, 0x86),
      (.weekday, 8, 0x8A), (.hour, 24, 0x84), (.minute, 60, 0x82), (.second, 60, 0x80)] := ⟨ready_reset, by decide⟩

theorem witness_ReadAddressIsWritePlusOne :
    isWriteAddr (0xFC : Byte).toNat = true ∧ Ready State.reset ∧ (Field.second, (0x80 : Byte)) ∈ [(Field.year, (0x8C : Byte)),
      (.month, 0x88), (.day, 0x86), (.weekday, 0x8A), (.hour, 0x84), (.minute, 0x82), (.second, 0x80)] :=
  ⟨by decide, ready_reset, by decide⟩

theorem witness_EventShapesDependOnTheOpcodeAlone :
    Ready State.reset ∧ Ready chip ∧ (Instr.wrram 5 0x7F).opcode = (Instr.wrram 30 0).opcode := ⟨ready_reset, ⟨rfl, rfl⟩, rfl⟩

/-- The clause about protection has a frame to speak of. -/
theorem witness_CommandsAreSequencesOfFrames :
    Ready State.reset ∧ (Instr.setsec 0).opcode ∉ [Opcode.d2b, .b2d, .wrbyte, .rdbyte] ∧
      (Instr.setsec 0).opcode.internal = false ∧ Frame.write 0x8E 0 ∈ protectedFrames 0x80 0 :=
  ⟨ready_reset, by decide, by decide, by decide⟩

/-- Two states that differ in everything the statement lets differ. -/
theorem witness_CommandsDoNotDependOnWhatRanBefore :
    let s := State.reset
    let s' : State := { State.reset with
      datOut := true, datOe := true, shreg := 0xA5, bitcnt := 8, latch := 0x45, seq := 24, result := 7, status := .refused, log := [] }
    (s.active = none ∧ s'.active = none ∧ s.cfg = s'.cfg ∧ s.cfg.line ≠ .mirrorLoopback ∧ s.clkOut = s'.clkOut ∧
      s.ceOut = s'.ceOut ∧ s.peer = s'.peer ∧ s.fifo = s'.fifo ∧ s.answers = s'.answers ∧ s.draws = s'.draws ∧
      s.ioFails = s'.ioFails) ∧
    (∃ t, exec .start s = .next t) ∧ ∃ t', exec .start s' = .next t' :=
  ⟨by decide, ⟨_, rfl⟩, _, rfl⟩

/-- Mapped write addresses at the ends of both ranges; a protected and an unprotected chip. -/
theorem witness_WrregAtTheReferencePeer :
    OnStaticPeer chip ∧ MemInv chip ∧ chip.reg 0x8E &&& chip.cfg.wpMask ≠ 0 ∧ OnStaticPeer runningChip ∧
      runningChip.reg 0x8E &&& runningChip.cfg.wpMask = 0 ∧
      [(0x80 : Byte), 0x8E, 0x90, 0xC0, 0xFC].all (fun a => isWriteAddr a.toNat) = true :=
  ⟨onStaticPeer_chip, memInv_chip, by decide, onStaticPeer_runningChip, by decide, by decide⟩

theorem witness_WrregOutsideTheReferencePeer :
    OnStaticPeer chip ∧ [(0x7E : Byte), 0x81, 0x91, 0x92, 0xBE, 0xFD, 0xFE].all (fun a => !isWriteAddr a.toNat) = true :=
  ⟨onStaticPeer_chip, by decide⟩

theorem witness_ReadsReturnTheRegister : OnStaticPeer chip ∧ isWriteAddr (0xFC : Byte).toNat = true :=
  ⟨onStaticPeer_chip, by decide⟩

theorem witness_RdregOutsideTheReferencePeer :
    OnStaticPeer chip ∧ ∀ w : Byte, isWriteAddr w.toNat = true → (0x80 : Byte) ≠ w + 1 ∧ (0xFF : Byte) ≠ w + 1 :=
  ⟨onStaticPeer_chip, by decide⟩

theorem witness_ProtectedWritesAreTaken :
    OnStaticPeer chip ∧ MemInv chip ∧ isWriteAddr (0x8E : Byte).toNat = true ∧ Field.setCmd .hour 24 = .sethour 24 ∧
      (BitVec.ofNat 8 (0xC0 + 2 * (61 % 31)) : Byte) = 0xFC :=
  ⟨onStaticPeer_chip, memInv_chip, by decide, rfl, by decide⟩

theorem witness_StartAndPauseAtTheReferencePeer : OnStaticPeer chip ∧ MemInv chip := ⟨onStaticPeer_chip, memInv_chip⟩
theorem witness_SetdatetimeAtTheReferencePeer : OnStaticPeer chip ∧ MemInv chip := ⟨onStaticPeer_chip, memInv_chip⟩

theorem witness_ReadBackReturnsWhatWasWritten :
    OnStaticPeer chip ∧ MemInv chip ∧ (∃ t, exec (Field.setCmd .year 1999) chip = .next t) ∧
      (62 % 31 = 31 % 31 ∧ ∃ t, exec (.wrram 31 0xAA) chip = .next t) ∧ (∃ t, exec .pause chip = .next t) ∧
      ∃ t, exec .start chip = .next t :=
  ⟨onStaticPeer_chip, memInv_chip, ⟨_, rfl⟩, ⟨rfl, _, rfl⟩, ⟨_, rfl⟩, _, rfl⟩

/-- A running chip at 59 seconds, and a paused one at 45. -/
theorem witness_GetsecDecodesTheHaltBit :
    (OnStaticPeer runningChip ∧ runningChip.reg 0x80 = d2b 59) ∧ (OnStaticPeer chip ∧ chip.reg 0x80 = 0x80 + d2b 45) :=
  ⟨⟨onStaticPeer_runningChip, by decide⟩, onStaticPeer_chip, by decide⟩

/-- A running chip whose time passes, and a halted one. -/
theorem witness_TimeChangesOnlyTheRunningClock :
    (OnPeer (tickingChip [(0x80, 0x59)]) ∧ MemInv (tickingChip [(0x80, 0x59)]) ∧
      ((tickingChip [(0x80, 0x59)]).reg 0x80).getLsbD 7 = false) ∧
    (OnPeer (tickingChip [(0x80, 0xC5)]) ∧ MemInv (tickingChip [(0x80, 0xC5)]) ∧
      ((tickingChip [(0x80, 0xC5)]).reg 0x80).getLsbD 7 = true) ∧
    (after .getmin (tickingChip [(0x80, 0x59)])).map State.result = some 1 ∧
    (after .getmin (tickingChip [(0x80, 0xC5)])).map State.result = some 0 :=
  ⟨⟨onPeer_tickingChip _, rfl, by decide⟩, ⟨onPeer_tickingChip _, rfl, by decide⟩, by decide, by decide⟩

/-- The first operation and the last of a command fail; the cleanup succeeds, or fails too. -/
theorem witness_IoErrorKeepsAPrefixAndCleansUp :
    ((failing [true, true]).active = none ∧ (failing [true, true]).cfg.pinIoCanFail = true ∧
      (failing [true, true]).ioFails = List.replicate 0 false ++ true :: [true] ∧ 0 < eventCount (.wrbyte 0)) ∧
    ((failing (List.replicate 23 false ++ [true])).ioFails = List.replicate 23 false ++ true :: [] ∧ 23 < eventCount (.wrbyte 0)) := by
  decide

theorem witness_NoFailureIsNoDifference :
    let s := failing (List.replicate 24 false ++ [true])
    s.active = none ∧ s.cfg.pinIoCanFail = true ∧ s.ioFails = List.replicate (eventCount .rdbyte) false ++ [true] := by decide

/-- An idle engine on its own pins again, and a busy one on others. -/
theorem witness_CreateResetsTheEngine :
    ((0 ≠ 1 ∧ 0 ≠ 2 ∧ 1 ≠ 2) ∧ chip.busy = false ∧ chip.peer.inframe = false ∧ chip.cfg.pins = resetPins) ∧
    (4 ≠ 5 ∧ 4 ≠ 6 ∧ 5 ≠ 6) ∧
    (∀ p ∈ [{ clk := 7, dat := 8, ce := 9, distinct := rfl : Pins }], ∀ x ∈ [4, 5, 6], x ≠ p.clk ∧ x ≠ p.dat ∧ x ≠ p.ce) ∧
    (chip.accept .start).busy = true ∧
    (∀ x ∈ [4, 5, 6], x ≠ chip.cfg.pins.clk ∧ x ≠ chip.cfg.pins.dat ∧ x ≠ chip.cfg.pins.ce) ∧
    (chip.accept .start).peer.inframe = false := by decide

theorem witness_CreateRefusesSharedPins :
    (4 = 4 ∨ 4 = 5 ∨ 4 = 5) ∧ (2 ≠ 5 ∧ 2 ≠ 6 ∧ 5 ≠ 6) ∧ resetPins ∈ [resetPins] ∧
      (∃ x ∈ [2, 5, 6], x = resetPins.clk ∨ x = resetPins.dat ∨ x = resetPins.ce) ∧ (chip.accept .start).busy = true ∧
      (chip.accept .start).cfg.pins = resetPins := by decide

theorem witness_MemoryStaysCanonical :
    MemInv (chip.withFetchWord 128 0x51000000000000000000000000000000) ∧
      ∃ t, step (chip.withFetchWord 128 0x51000000000000000000000000000000) = .next t := ⟨rfl, _, rfl⟩

theorem witness_LinesRestBetweenCommands :
    RestInv (chip.withFetchWord 128 0x51000000000000000000000000000000) ∧
      ∃ t, step (chip.withFetchWord 128 0x51000000000000000000000000000000) = .next t :=
  ⟨⟨⟨⟨rfl, rfl⟩, rfl, rfl⟩, fun _ _ => rfl⟩, _, rfl⟩

theorem witness_StepsOnlyAppendToTheRecords :
    ∃ t, step ((failing [false, true]).withFetchWord 128 0x51000000000000000000000000000000) = .next t := ⟨_, rfl⟩

end Sys2Proof.Tests
end

section
/-!
PROOFS. How a command can end (spec/00_scope.md R8, spec/60_exceptions.md R145), and what a step adds to the records (R7, R43): the statements O11 and O59.
-/
namespace Sys2Proof.Machine

/-! ### The two ends of a command -/

/-- A run of pin operations reports nothing and changes no parameter. -/
theorem runOps_kept {ops : List PinOp} {s t : State} (h : runOps ops s = .completed t ∨ runOps ops s = .failed t) :
    t.cfg = s.cfg ∧ t.reports = s.reports :=
  runOps_induct (P := fun s t => t.cfg = s.cfg ∧ t.reports = s.reports) (fun _ => ⟨rfl, rfl⟩)
    (fun _ _ _ ⟨a, b⟩ ⟨a', b'⟩ => ⟨a'.trans a, b'.trans b⟩) (fun _ => ⟨rfl, rfl⟩) (fun _ _ => by simp) ops s t h

/-- A command comes to its end, or an operation fails, where it can and is told to, and io-error abandons the command. -/
theorem runPlan_cases (p : Plan) (s : State) :
    (∃ t, runPlan p s = finish p.ending t ∧ t.cfg = s.cfg ∧ t.reports = s.reports) ∨
      (∃ t, runPlan p s = ioError t ∧ t.reports = s.reports ∧
        s.cfg.pinIoCanFail = true ∧ true ∈ s.ioFails ∧ p.ops.drop s.seq ≠ []) := by
  unfold runPlan
  split
  · rename_i t ht
    exact .inl ⟨t, rfl, runOps_kept (.inl ht)⟩
  · rename_i t ht
    exact .inr ⟨t, rfl, (runOps_kept (.inr ht)).2, runOps_failed ht⟩

@[simp] theorem ioError_status (s : State) : (ioError s).status = .ioError := rfl
@[simp] theorem ioError_result (s : State) : (ioError s).result = 0 := rfl
@[simp] theorem ioError_reports (s : State) : (ioError s).reports = { status := .ioError, result := 0 } :: s.reports := by
  simp only [ioError, endWith_reports]
  split <;> rfl

/-- A command that comes to its end is done, or is refused with the result 0; it adds its one report. -/
theorem finish_cases (e : Ending) (s : State) :
    ((finish e s).status = .done ∨ (finish e s).status = .refused ∧ (finish e s).result = 0) ∧
      (finish e s).reports = { status := (finish e s).status, result := (finish e s).result } :: s.reports := by
  cases e
  case toBcd v =>
    simp only [finish]
    split
    · exact ⟨.inl rfl, rfl⟩
    · exact ⟨.inr ⟨rfl, rfl⟩, rfl⟩
  all_goals exact ⟨.inl rfl, rfl⟩

/-- The one refusal: D2B above 99, unless that wraps (R70, U1). -/
theorem finish_refused_iff (e : Ending) (s : State) :
    (finish e s).status = .refused ↔ ∃ v, e = .toBcd v ∧ 99 < v ∧ s.cfg.d2bWraps = false := by
  cases e
  case toBcd v =>
    by_cases h : v ≤ 99 ∨ s.cfg.d2bWraps = true
    · simpa [finish, h, Nat.not_le] using fun hv => h.resolve_left (Nat.not_le.mpr hv)
    · simpa [finish, if_neg h, Nat.not_le] using h
  all_goals simp [finish]

/-- D2B alone ends by converting to BCD. -/
theorem planOf_ending_toBcd_iff (i : Instr) (v : Nat) : (planOf i).ending = .toBcd v ↔ i = .d2b v := by
  refine ⟨fun h => ?_, fun h => h ▸ rfl⟩
  cases i <;> cases h
  rfl

/-- Every command adds exactly one report, which says how it ended. -/
theorem runPlan_reports (p : Plan) (s : State) :
    (runPlan p s).reports = { status := (runPlan p s).status, result := (runPlan p s).result } :: s.reports := by
  obtain ⟨t, ht, -, hr⟩ | ⟨t, ht, hr, -⟩ := runPlan_cases p s
  · rw [ht, ← hr]
    exact (finish_cases _ t).2
  · simp [ht, hr]

/-- How a command ends from `s`: done, refused or io-error, and when it can be which (R8, R145). -/
theorem runPlan_accept_status (i : Instr) (s : State) :
    (runPlan (planOf i) (s.accept i)).status ≠ .illegal ∧
      ((runPlan (planOf i) (s.accept i)).status = .refused ↔ ∃ v, i = .d2b v ∧ 99 < v ∧ s.cfg.d2bWraps = false) ∧
      ((runPlan (planOf i) (s.accept i)).status = .ioError →
        s.cfg.pinIoCanFail = true ∧ true ∈ s.ioFails ∧ eventCount i ≠ 0) ∧
      ((runPlan (planOf i) (s.accept i)).status ≠ .done → (runPlan (planOf i) (s.accept i)).result = 0) := by
  obtain ⟨t, ht, hc, -⟩ | ⟨t, ht, -, hf, hv, hops⟩ := runPlan_cases (planOf i) (s.accept i)
  · have refused : (finish (planOf i).ending t).status = .refused ↔ ∃ v, i = .d2b v ∧ 99 < v ∧ s.cfg.d2bWraps = false := by
      simp only [finish_refused_iff, planOf_ending_toBcd_iff, hc, accept_cfg]
    rw [ht, ← refused]
    obtain h | ⟨h, hr⟩ := (finish_cases (planOf i).ending t).1
    · simp [h]
    · simp [h, hr]
  · have events : eventCount i ≠ 0 := by
      rw [← planOf_length]
      simpa using hops
    have notD2b : ∀ v, i ≠ .d2b v := fun v h => events (h ▸ rfl)
    rw [accept_cfg] at hf
    rw [accept_ioFails] at hv
    simp [ht, notD2b, events, hf, hv]

/-- Settles O11: a command comes to its end or is abandoned by io-error, and each of the two adds its one report. -/
theorem everyCommandEndsWithOneReport : Obligations.EveryCommandEndsWithOneReport := by
  intro s i idle
  obtain ⟨notIllegal, refused, failed, result⟩ := runPlan_accept_status i s
  obtain ⟨hcfg, hcmds, -⟩ := runPlan_kept (planOf i) (s.accept i)
  exact ⟨_, exec_idle i s idle, runPlan_idle _ _, runPlan_reports _ _, notIllegal, refused, failed, result, hcfg, hcmds⟩

/-! ### The records -/

/-- A command, or what is left of one, only appends to the trace. -/
theorem runPlan_trace (p : Plan) (s : State) : ∃ evs, (runPlan p s).trace = s.trace ++ evs := by
  obtain ⟨-, -, evs, hlog⟩ := runPlan_kept p s
  exact ⟨evs.reverse, by simp [State.trace, hlog]⟩

/-- Settles O59, by what a step can do: go on with a command, stay idle, take up a command, take an illegal descriptor. -/
theorem stepsOnlyAppendToTheRecords : Obligations.StepsOnlyAppendToTheRecords := by
  intro s t h
  obtain ⟨u, hu, what⟩ := step_cases s
  obtain rfl : u = t := by simpa [hu] using h
  obtain ⟨i, -, rfl⟩ | ⟨-, -, rfl⟩ | ⟨i, d, ds, -, hq, -, rfl⟩ | ⟨r, d, ds, -, hq, -, rfl⟩ := what
  · obtain ⟨hcfg, hcmds, -⟩ := runPlan_kept (planOf i) s
    exact ⟨hcfg, runPlan_trace _ _, .inr ⟨_, runPlan_reports _ _⟩, .inl hcmds⟩
  · exact ⟨rfl, ⟨[], (List.append_nil _).symm⟩, .inl rfl, .inl rfl⟩
  · obtain ⟨hcfg, hcmds, -⟩ := runPlan_kept (planOf i) (State.accept i { s with cmds := ds })
    exact ⟨hcfg, runPlan_trace _ (State.accept i { s with cmds := ds }), .inr ⟨_, runPlan_reports _ _⟩,
      .inr (hcmds.trans (by rw [hq]; rfl))⟩
  · exact ⟨rfl, ⟨[], (List.append_nil _).symm⟩, .inr ⟨_, rfl⟩, .inr (by rw [hq]; rfl)⟩

end Sys2Proof.Machine
end

section
/-!
PROOFS. The lines between commands (spec/10_state.md R22, spec/42_register_transport.md R95): the statement O57.
-/
namespace Sys2Proof.Machine

/-- The reference peer, unless it has refused a frame, is in none. -/
def NoFrame (s : State) : Prop := s.cfg.line = .referencePeer → s.peer.outside = false → s.peer.inframe = false

/-- Where no frame is open, only raising chip-select changes the peer (R83). -/
theorem perform_peer_of_noFrame {s : State} (h : NoFrame s) {op : PinOp} (hop : op ≠ .ce true) :
    (op.perform s).peer = s.peer := by
  cases hl : s.cfg.line
  case referencePeer =>
    by_cases ho : s.peer.outside = true
    · exact performAll_refused [op] s hl ho
    · have hf : s.peer.inframe = false := h hl (by simpa using ho)
      cases op
      case ce l =>
        obtain rfl : l = false := by simpa using hop
        simp [State.peerAfterWrite, hl, Peer.afterWrite, hf]
      all_goals simp [State.peerAfterWrite, State.peerAfterRead, hl, Peer.afterWrite, Peer.afterRead, hf]
  all_goals exact performAll_peer_kept [op] s (by simp [hl])

theorem performAll_peer_of_noFrame {ops : List PinOp} {s : State} (h : NoFrame s) (hops : .ce true ∉ ops) :
    (performAll ops s).peer = s.peer := by
  induction ops generalizing s with
  | nil => rfl
  | cons op ops ih =>
    obtain ⟨hop, hops⟩ := not_or.mp (mt List.mem_cons.mpr hops)
    have one : (op.perform s).peer = s.peer := perform_peer_of_noFrame h (Ne.symm hop)
    have still : NoFrame (op.perform s) := by simpa only [NoFrame, one, perform_cfg] using h
    rw [performAll_cons, ih still hops, one]

/-- Closing a frame, complete or not, leaves none open (R46). -/
theorem Peer.closeFrame_inframe (mask : Byte) (p : Peer) : (p.closeFrame mask).inframe = false := by
  unfold Peer.closeFrame
  split
  · split <;> rfl
  · rfl

/-- After chip-select has been driven low no frame is open. -/
theorem perform_ceLow_noFrame (s : State) : NoFrame ((PinOp.ce false).perform s) := by
  intro line inside
  rw [perform_cfg] at line
  simp only [perform_ce_peer, State.peerAfterWrite, line, Peer.afterWrite] at inside ⊢
  split
  · rename_i ho
    simp [ho] at inside
  · split
    · exact Peer.closeFrame_inframe _ _
    · rename_i hf
      simpa using hf

/-- The lines as they rest between commands (R22). -/
structure LinesRest (s : State) : Prop where
  clk : s.clkOut = false
  ce : s.ceOut = false
  noFrame : NoFrame s

/-- The invariant, as what is said of the engine and what is said of the lines. -/
theorem restInv_iff (s : State) : RestInv s ↔ Ready s ∧ LinesRest s :=
  ⟨fun h => ⟨h.toReady, h.clk, h.ce, h.noFrame⟩, fun ⟨hr, hl⟩ => ⟨⟨hr, hl.clk, hl.ce⟩, hl.noFrame⟩⟩

/-! A frame leaves the lines at rest, whatever they were before (R52, R53). -/

theorem writeOps_linesRest (a : Byte) (src : ByteSrc) (s : State) : LinesRest (performAll (writeOps a src) s) := by
  have frame := writeOps_spec a src s
  refine ⟨frame.clk, frame.ce, ?_⟩
  rw [writeOps, performAll_append]
  exact perform_ceLow_noFrame _

theorem readOps_linesRest (a : Byte) (s : State) : LinesRest (performAll (readOps a) s) := by
  have frame := (readOps_spec a s).1
  refine ⟨frame.clk, frame.ce, ?_⟩
  rw [readOps, performAll_append]
  exact perform_ceLow_noFrame _

/-- The protected write ends with a write frame (R92). -/
theorem protectedOps_linesRest (a : Byte) (src : ByteSrc) (s : State) :
    LinesRest (performAll (protectedOps a src) s) := by
  rw [protectedOps, performAll_append]
  exact writeOps_linesRest _ _ _

/-- The byte transport outside a frame gives clock pulses alone, which the peer does not notice (R83). -/
theorem sendByte_linesRest (src : ByteSrc) {s : State} (h : LinesRest s) : LinesRest (performAll (sendByte src) s) := by
  have sent := sendByte_spec src s
  have quiet := performAll_peer_of_noFrame (ops := sendByte src) h.noFrame (by simp [sendByte, sendBit])
  exact ⟨sent.clk, sent.ce.trans h.ce, by simpa only [NoFrame, quiet, performAll_cfg] using h.noFrame⟩

theorem receiveByte_linesRest {s : State} (h : LinesRest s) : LinesRest (performAll receiveByte s) := by
  have received := receiveByte_spec s
  have quiet := performAll_peer_of_noFrame (ops := receiveByte) h.noFrame (by simp [receiveByte, receiveBit])
  exact ⟨received.clk, received.ce.trans h.ce, by simpa only [NoFrame, quiet, performAll_cfg] using h.noFrame⟩

/-- Every command performed to its end leaves the lines at rest: it has no pin event, is one byte outside a frame, or ends with a frame. -/
theorem planOf_linesRest (i : Instr) {s : State} (h : LinesRest s) : LinesRest (performAll (planOf i).ops s) := by
  cases i
  case d2b | b2d => exact h
  case wrbyte => exact sendByte_linesRest _ h
  case rdbyte => exact receiveByte_linesRest h
  case wrreg => exact writeOps_linesRest _ _ s
  case rdreg | rdram | getyear | getmonth | getday | gethour | getmin | getsec | getwday => exact readOps_linesRest _ s
  case pwrreg | wrram | setyear | setmonth | setday | sethour | setmin | setsec | setwday =>
    exact protectedOps_linesRest _ _ s
  case start | pause =>
    simp only [planOf, planStart, planPause, performAll_append]
    exact protectedOps_linesRest _ _ _
  case setdatetime =>
    simp only [planOf, planSetdatetime, performAll_append]
    exact protectedOps_linesRest _ _ _

/-- The end of a command leaves the lines alone. -/
theorem PortOnly.linesRest {s t : State} (h : PortOnly s t) (hs : LinesRest s) : LinesRest t :=
  ⟨h.clk.trans hs.clk, h.ce.trans hs.ce, by simpa only [NoFrame, h.cfg, h.peer] using hs.noFrame⟩

/-- A whole command that cannot fail leaves the lines at rest. -/
theorem runPlan_linesRest (i : Instr) {s : State} (reliable : s.cfg.pinIoCanFail = false) (h : LinesRest s) :
    LinesRest (runPlan (planOf i) (s.accept i)) := by
  have accepted : LinesRest (s.accept i) := ⟨h.clk, h.ce, h.noFrame⟩
  simp only [runPlan, accept_seq, List.drop_zero, runOps_reliable _ (s.accept i) reliable]
  exact (finish_portOnly _ _).linesRest (planOf_linesRest i accepted)

/-- Settles O57, by what a step from an idle engine can do: stay idle, take up a command, take an illegal descriptor. -/
theorem linesRestBetweenCommands : Obligations.LinesRestBetweenCommands := by
  intro s t hs hstep
  obtain ⟨ready, rest⟩ := (restInv_iff s).mp hs
  obtain ⟨u, hu, what⟩ := step_cases s
  obtain rfl : u = t := by simpa [hu] using hstep
  obtain ⟨i, busy, -⟩ | ⟨-, -, rfl⟩ | ⟨i, d, ds, -, -, -, rfl⟩ | ⟨r, d, ds, -, -, -, rfl⟩ := what
  · simp [ready.idle] at busy
  · exact hs
  · have taken : LinesRest { s with cmds := ds } := ⟨rest.clk, rest.ce, rest.noFrame⟩
    have same := (runPlan_kept (planOf i) (State.accept i { s with cmds := ds })).1
    exact (restInv_iff _).mpr ⟨⟨runPlan_idle _ _, by rw [same]; exact ready.reliable⟩,
      runPlan_linesRest i ready.reliable taken⟩
  · exact (restInv_iff _).mpr ⟨⟨rfl, ready.reliable⟩, rest.clk, rest.ce, rest.noFrame⟩

end Sys2Proof.Machine
end

section
/-!
PROOFS. The two grains of a command in progress, one pin event and the whole of it (spec/10_state.md R18,
spec/70_reset_and_hazards.md R176): the statements O12, O13 and O14.
-/
namespace Sys2Proof.Machine

@[simp] theorem ioError_active (s : State) : (ioError s).active = none := rfl

/-- With no pin operation left, the next event is the end of the command, and so is the rest of it. -/
theorem eventOf_last {p : Plan} {s : State} (h : p.ops.drop s.seq = []) :
    eventOf p s = finish p.ending s ∧ runPlan p s = finish p.ending s := by
  simp [eventOf, runPlan, h, runOps]

/-- The rest of a command, by its next pin operation. -/
theorem runPlan_cons {p : Plan} {s : State} {op : PinOp} {rest : List PinOp} (h : p.ops.drop s.seq = op :: rest) :
    runPlan p s = if s.nextFails then ioError s.takeVerdict else runPlan p (op.perform s.takeVerdict) := by
  have after : p.ops.drop (s.seq + 1) = rest := by
    rw [← List.drop_drop, h, List.drop_one, List.tail_cons]
  cases hf : s.nextFails <;> simp [runPlan, h, after, runOps, hf]

/-- One event of a command, by its next pin operation. -/
theorem eventOf_cons {p : Plan} {s : State} {op : PinOp} {rest : List PinOp} (h : p.ops.drop s.seq = op :: rest) :
    eventOf p s = if s.nextFails then ioError s.takeVerdict
      else if rest = [] then finish p.ending (op.perform s.takeVerdict) else op.perform s.takeVerdict := by
  simp [eventOf, h, List.isEmpty_iff]

/-- The operations that are left of a command, counted. -/
theorem eventCount_of_drop {i : Instr} {s : State} {op : PinOp} {rest : List PinOp}
    (h : (planOf i).ops.drop s.seq = op :: rest) : eventCount i = s.seq + 1 + rest.length := by
  have := congrArg List.length h
  simp only [List.length_drop, planOf_length, List.length_cons] at this
  omega

/-- What one pin event of the command in progress does: it ends the command, as carrying it out does; or it advances `SEQ` by one, and
what is left of the command comes to the same end. -/
theorem eventStep_cases {i : Instr} {s : State} (h : s.active = some i) :
    ((eventStep s).active = none ∧ eventStep s = runPlan (planOf i) s) ∨
      ((eventStep s).active = some i ∧ (eventStep s).seq = s.seq + 1 ∧ s.seq + 1 < eventCount i ∧
        runPlan (planOf i) (eventStep s) = runPlan (planOf i) s) := by
  have one : eventStep s = eventOf (planOf i) s := by simp only [eventStep, h]
  rw [one]
  cases hops : (planOf i).ops.drop s.seq with
  | nil =>
    obtain ⟨hevent, hrun⟩ := eventOf_last hops
    exact .inl ⟨by rw [hevent]; exact (finish_portOnly _ _).idle, hevent.trans hrun.symm⟩
  | cons op rest =>
    rw [eventOf_cons hops, runPlan_cons hops]
    have count := eventCount_of_drop hops
    by_cases hf : s.nextFails = true
    · simp [hf]
    · by_cases hrest : rest = []
      · refine .inl ?_
        have none_left : (planOf i).ops.drop (op.perform s.takeVerdict).seq = [] := by
          rw [List.drop_eq_nil_iff, planOf_length, count, hrest, perform_seq]
          rfl
        rw [if_neg hf, if_neg hf, if_pos hrest, (eventOf_last none_left).2]
        exact ⟨(finish_portOnly _ _).idle, rfl⟩
      · refine .inr ?_
        have more : 0 < rest.length := List.length_pos_iff.mpr hrest
        simp only [if_neg hf, if_neg hrest, perform_active, perform_seq, takeVerdict_active, takeVerdict_seq, h, true_and]
        exact ⟨by omega, trivial⟩

/-- An idle engine has no event. -/
theorem eventSteps_idle (n : Nat) {s : State} (h : s.active = none) : eventSteps n s = s := by
  induction n with
  | zero => rfl
  | succ n ih =>
    have one : eventStep s = s := by simp only [eventStep, h]
    rw [eventSteps, one, ih]

/-- As many events as are left of a command, at least one, are the rest of it. -/
theorem eventSteps_eq_runPlan {i : Instr} (n : Nat) {s : State} (h : s.active = some i) (hn : eventCount i ≤ s.seq + (n + 1)) :
    eventSteps (n + 1) s = runPlan (planOf i) s := by
  induction n generalizing s with
  | zero =>
    obtain ⟨-, hend⟩ | ⟨-, -, more, -⟩ := eventStep_cases h
    · exact hend
    · omega
  | succ n ih =>
    rw [eventSteps]
    obtain ⟨idle, hend⟩ | ⟨busy, hseq, -, same⟩ := eventStep_cases h
    · rw [eventSteps_idle _ idle, hend]
    · rw [ih busy (by omega), same]

/-- While a command is still in progress after some of its events, what is left of it comes to the same end. -/
theorem runPlan_eventSteps {i : Instr} (k : Nat) {s : State} (h : s.active = some i) (hk : (eventSteps k s).active = some i) :
    runPlan (planOf i) (eventSteps k s) = runPlan (planOf i) s := by
  induction k generalizing s with
  | zero => rfl
  | succ k ih =>
    rw [eventSteps] at hk ⊢
    obtain ⟨idle, -⟩ | ⟨busy, -, -, same⟩ := eventStep_cases h
    · simp [eventSteps_idle k idle, idle] at hk
    · rw [ih busy hk, same]

/-- Settles O12, by induction on the number of events left. -/
theorem commandIsItsPinEvents : Obligations.CommandIsItsPinEvents := by
  intro s i idle
  obtain ⟨n, hn⟩ : ∃ n, max 1 (eventCount i) = n + 1 := ⟨max 1 (eventCount i) - 1, by omega⟩
  rw [exec_idle i s idle, hn, eventSteps_eq_runPlan n (accept_active i s) (by rw [accept_seq]; omega)]

/-- Settles O13: each event of a command leaves its end as it was. -/
theorem stepResumesTheCommandInProgress : Obligations.StepResumesTheCommandInProgress := by
  intro s i k idle busy
  rw [exec_idle i s idle, ← runPlan_eventSteps k (accept_active i s) busy]
  simp only [step, busy, resume]

/-- Every pin operation appends one event (R7). -/
theorem perform_trace (op : PinOp) (s : State) : ∃ e, (op.perform s).trace = s.trace ++ [e] := by
  have one : ∃ e, (op.perform s).log = e :: s.log := by cases op <;> exact ⟨_, rfl⟩
  obtain ⟨e, he⟩ := one
  exact ⟨e, by simp [State.trace, he]⟩

/-- Settles O14: the next event performs one pin operation, and the last one ends the command too. -/
theorem eachPinEventAdvancesSeqByOne : Obligations.EachPinEventAdvancesSeqByOne := by
  intro s i busy hseq reliable
  have hf : s.nextFails = false := by simp [State.nextFails, reliable]
  obtain ⟨op, rest, hops⟩ : ∃ op rest, (planOf i).ops.drop s.seq = op :: rest := by
    refine List.exists_cons_of_length_pos ?_
    rw [List.length_drop, planOf_length]
    omega
  have count := eventCount_of_drop hops
  obtain ⟨e, he⟩ := perform_trace op s.takeVerdict
  have one : eventStep s = if rest = [] then finish (planOf i).ending (op.perform s.takeVerdict) else op.perform s.takeVerdict := by
    simp only [eventStep, busy, eventOf_cons hops, hf, Bool.false_eq_true, if_false]
  rw [one]
  by_cases hrest : rest = []
  · have ended := finish_portOnly (planOf i).ending (op.perform s.takeVerdict)
    simp only [hrest, List.length_nil, Nat.add_zero] at count
    rw [if_pos hrest]
    exact ⟨ended.seq.trans (perform_seq _ _), ⟨e, by rw [State.trace, ended.log]; exact he⟩, fun _ => count.symm,
      fun _ => ended.idle⟩
  · have more : 0 < rest.length := List.length_pos_iff.mpr hrest
    rw [if_neg hrest]
    refine ⟨perform_seq _ _, ⟨e, he⟩, fun idle => ?_, fun _ => by omega⟩
    simp [busy] at idle

end Sys2Proof.Machine
end

section
/-!
PROOFS. Draws outside a frame (spec/10_state.md R14, spec/41_byte_transport.md R83): the statement O20.
-/
namespace Sys2Proof.Machine

/-- Where no frame is open at a peer that answers nothing else, every read of a byte is a draw (R83). -/
theorem allDraws_of_noFrame {s : State} (line : s.cfg.line = .referencePeer)
    (h : s.peer.inframe = false ∨ s.peer.outside = true) : AllDraws s := by
  intro k _
  have noFrame : NoFrame s := fun _ inside => h.resolve_right (by simp [inside])
  have quiet : (beforeBit k s).peer = s.peer := performAll_peer_of_noFrame noFrame (by simp [receiveBit])
  have line' : (beforeBit k s).cfg.line = .referencePeer := by simpa [beforeBit] using line
  simp only [State.fixtureLevel, line', quiet]
  rcases h with h | h <;> simp [Peer.answer, h]

/-- A byte of draws uses eight of them up. -/
theorem receiveByte_eightDraws {s : State} (h : AllDraws s) : EightDraws s (performAll receiveByte s) := by
  obtain ⟨answers, draws⟩ := beforeBit_inputs s h (k := 8) le_rfl
  exact ⟨answers, draws⟩

/-- Settles O20: no level of the byte is answered by a fixture, in the general model and outside a frame alike. -/
theorem rdbyteOfDraws : Obligations.RdbyteOfDraws := by
  intro s ready hline
  have draws : AllDraws (s.accept .rdbyte) := by
    obtain general | ⟨line, h⟩ := hline
    · exact allDraws_general _ general
    · exact allDraws_of_noFrame line h
  have received := receiveByte_spec (s.accept .rdbyte)
  obtain ⟨answers, count⟩ := receiveByte_eightDraws draws
  refine ⟨_, exec_reliable .rdbyte s ready.idle ready.reliable, ?_, ⟨answers, count⟩⟩
  show zext16 (performAll receiveByte (s.accept .rdbyte)).shreg = _
  rw [received.shreg, receivedByte_draws _ draws, draw_of_inputs (s := s) (t := s.accept .rdbyte) rfl rfl]

end Sys2Proof.Machine
end

section
/-!
PROOFS. The port, construction and reset (spec/10_state.md R11, R17, R24, spec/60_exceptions.md R153): the statements O6, O7, O10, O54,
O55 and O58.
-/
namespace Sys2Proof.Machine

/-- Settles O6, by the step's own case of an idle engine and an accepted descriptor. -/
theorem stepRunsTheDecodedCommand : Obligations.StepRunsTheDecodedCommand := by
  intro s d ds i idle queue accepted
  simp only [step, idle, queue, accepted]

/-- Settles O7: the placed descriptor stands first in the queue of an idle engine. -/
theorem placedDescriptorRunsNext : Obligations.PlacedDescriptorRunsNext := by
  intro s nbits w i accepted
  exact stepRunsTheDecodedCommand (s.withFetchWord nbits w) _ s.cmds.tail i rfl rfl accepted

/-- Settles O10: every meaning is an issue of its plan, which a busy port does not accept. -/
theorem busyPortAcceptsNothing : Obligations.BusyPortAcceptsNothing := fun s i busy => exec_busy i s busy

/-- Three identifiers of which two are equal are not distinct. -/
theorem pins_not_distinct {c d e : Nat} (h : c = d ∨ c = e ∨ d = e) : ¬ (c != d && c != e && d != e) = true := by
  simp only [Bool.and_eq_true, bne_iff_ne, ne_eq]
  tauto

/-- Construction on distinct pins of which one is held is refused (R153, R164). -/
theorem create_shared (others : List Pins) {c d e : Nat} {s : State} {p : Pins} (hcd : c ≠ d) (hce : c ≠ e) (hde : d ≠ e)
    (held : p ∈ s.heldPins others) (shared : ∃ x ∈ [c, d, e], x = p.clk ∨ x = p.dat ∨ x = p.ce) :
    create others c d e s = .refused .pinsShared := by
  obtain ⟨equal, -⟩ | ⟨-, -, refused⟩ | ⟨h, t, free, -⟩ := create_cases others c d e s
  · tauto
  · exact refused
  · have overlap : Pins.overlap ⟨c, d, e, h⟩ p = true := (Pins.overlap_iff _ _).mpr shared
    simp [free p held] at overlap

/-- Settles O54: equal identifiers are no binding; the bindings of other instances, and that of a busy engine, are held. -/
theorem createRefusesSharedPins : Obligations.CreateRefusesSharedPins := by
  refine ⟨fun s others c d e equal => ?_, fun s others p c d e hcd hce hde hp shared => ?_,
    fun s others c d e hcd hce hde busy shared => ?_⟩
  · obtain ⟨-, refused⟩ | ⟨h, -⟩ | ⟨h, -⟩ := create_cases others c d e s
    · exact refused
    · exact absurd h (pins_not_distinct equal)
    · exact absurd h (pins_not_distinct equal)
  · have held : p ∈ s.heldPins others := by
      cases busy : s.busy
      · simpa [busy] using hp
      · simp [busy, hp]
    exact create_shared others hcd hce hde held shared
  · have held : s.cfg.pins ∈ s.heldPins others := by simp [busy]
    exact create_shared others hcd hce hde held shared

/-- Settles O55, by the values of the reset state. -/
theorem resetValues : Obligations.ResetValues := by
  unfold Obligations.ResetValues
  decide

/-- The engine after reset is idle and cannot fail, its lines rest, and no frame is open (R24). -/
theorem restInv_reset : RestInv State.reset :=
  (restInv_iff _).mpr ⟨⟨rfl, rfl⟩, rfl, rfl, fun _ _ => rfl⟩

/-- Settles O58: the registers after reset are the empty list, and the lines rest. -/
theorem invariantsHoldAtReset : Obligations.InvariantsHoldAtReset :=
  ⟨rfl, restInv_reset⟩

end Sys2Proof.Machine
end

section
/-!
PROOFS. Statelessness (spec/10_state.md R26, R19): two runs of one command in lockstep. What a command reads of the engine it has itself set
before: the statement O40.
-/
namespace Sys2Proof.Machine

/-- What two engines in lockstep have in common beside the environment: the data line with `SHREG`, and `LATCH`. -/
structure Known where
  data : Bool
  latch : Bool

/-- At the start of a command neither is known. -/
def Known.start : Known := { data := false, latch := false }

/-- What must be known to send a byte. -/
def ByteSrc.fits (K : Known) : ByteSrc → Bool
  | .lit _ => true
  | .latchCleared | .latchSet => K.latch

/-- What is known after a pin operation; none where the operation would read what is not known. -/
def PinOp.track (K : Known) : PinOp → Option Known
  | .ce _ | .clkLow => some K
  | .ceLatch => if K.data then some { K with latch := true } else none
  | .clkHigh => if K.data then some K else none
  | .drive src k => if (if k = 0 then src.fits K else K.data) then some { K with data := true } else none
  | .sample k => if k = 0 || K.data then some { K with data := true } else none

/-- What is known after pin operations. -/
def trackAll (K : Known) : List PinOp → Option Known
  | [] => some K
  | op :: ops => (op.track K).bind fun K' => trackAll K' ops

/-- What must be known to end a command: a byte read is taken from `SHREG`. -/
def Ending.fits (K : Known) : Ending → Bool
  | .byteRead | .fieldRead _ => K.data
  | .confirm | .toBcd _ | .fromBcd _ => true

theorem trackAll_append {K K' K'' : Known} {ops ops' : List PinOp} (h : trackAll K ops = some K')
    (h' : trackAll K' ops' = some K'') : trackAll K (ops ++ ops') = some K'' := by
  induction ops generalizing K with
  | nil =>
    obtain rfl : K = K' := by simpa [trackAll] using h
    exact h'
  | cons op ops ih =>
    obtain ⟨K₁, one, rest⟩ := Option.bind_eq_some_iff.mp h
    exact Option.bind_eq_some_iff.mpr ⟨K₁, one, ih rest⟩

/-! Each byte and each frame sets the data line and `SHREG` before it reads them; a read frame of START or PAUSE sets `LATCH`. -/

section
variable {K : Known} {src : ByteSrc}

theorem sendByte_tracked (h : src.fits K = true) : trackAll K (sendByte src) = some { K with data := true } := by
  obtain ⟨data, latch⟩ := K
  cases src
  case lit b => rfl
  case latchCleared | latchSet =>
    obtain rfl : latch = true := h
    rfl

theorem receiveByte_tracked : trackAll K receiveByte = some { K with data := true } := rfl

/-- Whether a byte can be sent depends on nothing but `LATCH`. -/
theorem fits_of_latch (h : src.fits K = true) : src.fits { K with data := true } = true := by cases src <;> exact h

/-- A frame is opened and its address sent. -/
theorem address_tracked (a : Byte) : trackAll K ([.ce true] ++ sendByte (.lit a)) = some { K with data := true } :=
  trackAll_append rfl (sendByte_tracked rfl)

theorem writeOps_tracked (a : Byte) (h : src.fits K = true) :
    trackAll K (writeOps a src) = some { K with data := true } :=
  trackAll_append (trackAll_append (address_tracked a) (sendByte_tracked (fits_of_latch h))) rfl

theorem readOps_tracked (a : Byte) : trackAll K (readOps a) = some { K with data := true } :=
  trackAll_append (trackAll_append (address_tracked a) receiveByte_tracked) rfl

theorem readLatchOps_tracked (a : Byte) : trackAll K (readLatchOps a) = some { data := true, latch := true } :=
  trackAll_append (trackAll_append (address_tracked a) receiveByte_tracked) rfl

theorem protectedOps_tracked (a : Byte) (h : src.fits K = true) :
    trackAll K (protectedOps a src) = some { K with data := true } :=
  have disable : ∀ K : Known, trackAll K disableOps = some { K with data := true } := fun _ => writeOps_tracked addrWp rfl
  trackAll_append (trackAll_append (disable K) (writeOps_tracked a (fits_of_latch h))) (disable _)

theorem setOps_tracked (f : Field) (v : Nat) : trackAll K (setOps f v) = some { K with data := true } :=
  protectedOps_tracked f.writeAddr rfl

end

/-- Every command sets what it reads of the engine before it reads it. -/
theorem planOf_tracked (i : Instr) :
    ∃ K, trackAll Known.start (planOf i).ops = some K ∧ (planOf i).ending.fits K = true := by
  cases i
  case d2b | b2d => exact ⟨_, rfl, rfl⟩
  case wrbyte => exact ⟨_, sendByte_tracked rfl, rfl⟩
  case rdbyte => exact ⟨_, receiveByte_tracked, rfl⟩
  case wrreg => exact ⟨_, writeOps_tracked _ rfl, rfl⟩
  case rdreg | rdram | getyear | getmonth | getday | gethour | getmin | getsec | getwday =>
    exact ⟨_, readOps_tracked _, rfl⟩
  case pwrreg | wrram | setyear | setmonth | setday | sethour | setmin | setsec | setwday =>
    exact ⟨_, protectedOps_tracked _ rfl, rfl⟩
  case start | pause => exact ⟨_, trackAll_append (readLatchOps_tracked _) (protectedOps_tracked _ rfl), rfl⟩
  case setdatetime y mo d w h mi sec =>
    have more : ∀ {ops : List PinOp} (f : Field) (v : Nat), trackAll Known.start ops = some { Known.start with data := true } →
        trackAll Known.start (ops ++ setOps f v) = some { Known.start with data := true } :=
      fun f v h => trackAll_append h (setOps_tracked f v)
    have year := setOps_tracked (K := Known.start) .year y
    exact ⟨_, more .second sec (more .minute mi (more .hour h (more .weekday w (more .day d (more .month mo year))))), rfl⟩

/-- Two engines in lockstep: the same environment and parameters, the same levels of clock and chip-select, what is known the same in both,
and the same events since their traces were `l` and `l'`. The mirror loopback is left out, which answers with `DAT_OUT`. -/
structure Lockstep (l l' : List PinEvent) (K : Known) (s s' : State) : Prop where
  cfg : s.cfg = s'.cfg
  noMirror : s.cfg.line ≠ .mirrorLoopback
  clk : s.clkOut = s'.clkOut
  ce : s.ceOut = s'.ceOut
  peer : s.peer = s'.peer
  fifo : s.fifo = s'.fifo
  answers : s.answers = s'.answers
  draws : s.draws = s'.draws
  ioFails : s.ioFails = s'.ioFails
  datLine : K.data = true → s.datLine = s'.datLine
  shreg : K.data = true → s.shreg = s'.shreg
  latch : K.latch = true → s.latch = s'.latch
  log : ∃ evs, s.log = evs ++ l ∧ s'.log = evs ++ l'

section
variable {l l' : List PinEvent} {K : Known} {s s' : State}

/-- An event in both traces. -/
theorem events_cons (e : PinEvent) {m m' : List PinEvent} (h : ∃ evs, m = evs ++ l ∧ m' = evs ++ l') :
    ∃ evs, e :: m = evs ++ l ∧ e :: m' = evs ++ l' := by
  obtain ⟨evs, rfl, rfl⟩ := h
  exact ⟨e :: evs, rfl, rfl⟩

/-- The same environment answers the same level. -/
theorem Lockstep.fixtureLevel (h : Lockstep l l' K s s') : s.fixtureLevel = s'.fixtureLevel := by
  simp only [State.fixtureLevel, ← h.cfg, ← h.peer, ← h.fifo]
  cases line : s.cfg.line
  case mirrorLoopback => exact absurd line h.noMirror
  case general | referencePeer | fifoLoopback => rfl

theorem Lockstep.readLevel (h : Lockstep l l' K s s') : s.readLevel = s'.readLevel := by
  simp only [State.readLevel, State.drawLevel, h.fixtureLevel, h.answers, h.draws]

/-- The peer notices the level of the data line only where the engine drives it (R46). -/
theorem Peer.pulse_of_datLine (p : Peer) {d d' : Level} {oe oe' : Bool}
    (h : (if oe then some d else none) = if oe' then some d' else none) : p.pulse d oe = p.pulse d' oe' := by
  cases oe <;> cases oe' <;> simp at h
  · simp [Peer.pulse]
  · rw [h]

theorem Peer.afterWrite_of_datLine (p : Peer) (mask : Byte) (c e : Level) {d d' : Level} {oe oe' : Bool} {pin : Pin} {m : Level}
    (h : pin = .clk → m = true → (if oe then some d else none) = if oe' then some d' else none) :
    p.afterWrite mask c e d oe pin m = p.afterWrite mask c e d' oe' pin m := by
  cases pin
  case clk =>
    cases m
    case false => rfl
    case true => simp only [Peer.afterWrite, Peer.pulse_of_datLine p (h rfl rfl)]
  case dat => rfl
  case ce => cases m <;> rfl

/-- So does the FIFO loopback (R49). -/
theorem fifoAfterWrite_of_datLine (q : List Level) (c : Level) {d d' : Level} {oe oe' : Bool} {pin : Pin} {m : Level}
    (h : pin = .clk → m = true → (if oe then some d else none) = if oe' then some d' else none) :
    fifoAfterWrite c d oe pin m q = fifoAfterWrite c d' oe' pin m q := by
  cases pin
  case clk =>
    cases m
    case false => rfl
    case true =>
      have line := h rfl rfl
      cases oe <;> cases oe' <;> simp at line
      · rfl
      · rw [line]
  case dat | ce => rfl

/-- What a pin write does to the environment, where only a rising clock needs the data line known. -/
theorem Lockstep.peerAfterWrite (h : Lockstep l l' K s s') (pin : Pin) (m : Level) (hd : pin = .clk → m = true → K.data = true) :
    s.peerAfterWrite pin m = s'.peerAfterWrite pin m := by
  have same := s.peer.afterWrite_of_datLine s.cfg.wpMask s.clkOut s.ceOut (fun hp hm => h.datLine (hd hp hm))
  simp only [State.peerAfterWrite, ← h.cfg, ← h.peer, ← h.clk, ← h.ce, same]

theorem Lockstep.fifoAfterWrite (h : Lockstep l l' K s s') (pin : Pin) (m : Level) (hd : pin = .clk → m = true → K.data = true) :
    s.fifoAfterWrite pin m = s'.fifoAfterWrite pin m := by
  have same := fifoAfterWrite_of_datLine s.fifo s.clkOut (fun hp hm => h.datLine (hd hp hm))
  simp only [State.fifoAfterWrite, ← h.cfg, ← h.fifo, ← h.clk, same]

/-- The byte to send is known. -/
theorem Lockstep.value (h : Lockstep l l' K s s') {src : ByteSrc} (hsrc : src.fits K = true) : src.value s = src.value s' := by
  cases src
  case lit b => rfl
  case latchCleared | latchSet => simp only [ByteSrc.value, h.latch hsrc]

/-- A pin operation that reads nothing unknown keeps two engines in lockstep. -/
theorem Lockstep.perform (h : Lockstep l l' K s s') {op : PinOp} {K' : Known} (known : op.track K = some K') :
    Lockstep l l' K' (op.perform s) (op.perform s') := by
  obtain ⟨cfg, noMirror, clk, ce, peer, fifo, answers, draws, ioFails, datLine, shreg, latch, log⟩ := id h
  cases op
  case ce m =>
    obtain rfl : K = K' := by simpa [PinOp.track] using known
    exact ⟨cfg, noMirror, clk, rfl, h.peerAfterWrite .ce m (by simp), h.fifoAfterWrite .ce m (by simp), answers, draws, ioFails,
      datLine, shreg, latch, events_cons _ log⟩
  case ceLatch =>
    obtain ⟨data, rfl⟩ : K.data = true ∧ { K with latch := true } = K' := by simpa [PinOp.track] using known
    exact ⟨cfg, noMirror, clk, rfl, h.peerAfterWrite .ce _ (by simp), h.fifoAfterWrite .ce _ (by simp), answers, draws, ioFails,
      datLine, shreg, fun _ => shreg data, events_cons _ log⟩
  case clkHigh =>
    obtain ⟨data, rfl⟩ : K.data = true ∧ K = K' := by simpa [PinOp.track] using known
    exact ⟨cfg, noMirror, rfl, ce, h.peerAfterWrite .clk _ fun _ _ => data, h.fifoAfterWrite .clk _ fun _ _ => data, answers, draws,
      ioFails, datLine, shreg, latch, events_cons _ log⟩
  case clkLow =>
    obtain rfl : K = K' := by simpa [PinOp.track] using known
    exact ⟨cfg, noMirror, rfl, ce, h.peerAfterWrite .clk _ (by simp), h.fifoAfterWrite .clk _ (by simp), answers, draws, ioFails,
      datLine, shreg, latch, events_cons _ log⟩
  case drive src k =>
    obtain ⟨bit, rfl⟩ : (if k = 0 then src.fits K else K.data) = true ∧ { K with data := true } = K' := by
      simpa [PinOp.track] using known
    have sent : s.sendReg src k = s'.sendReg src k := by
      unfold State.sendReg
      split at bit <;> rename_i hk
      · simpa only [if_pos hk] using h.value bit
      · simpa only [if_neg hk] using shreg bit
    simp only [PinOp.perform, ← sent]
    exact ⟨cfg, noMirror, clk, ce, h.peerAfterWrite .dat _ (by simp), h.fifoAfterWrite .dat _ (by simp), answers, draws, ioFails,
      fun _ => rfl, fun _ => rfl, latch, events_cons _ log⟩
  case sample k =>
    obtain ⟨bit, rfl⟩ : (k = 0 ∨ K.data = true) ∧ { K with data := true } = K' := by simpa [PinOp.track] using known
    have received : s.receiveReg k = s'.receiveReg k := by
      unfold State.receiveReg
      split
      · rfl
      · rename_i hk
        exact shreg (bit.resolve_left hk)
    have level := h.readLevel
    have peer' : s.peerAfterRead = s'.peerAfterRead := by simp only [State.peerAfterRead, cfg, peer]
    have answers' : s.pinRead.answers = s'.pinRead.answers := by simp only [pinRead_answers, h.fixtureLevel, answers]
    have draws' : s.pinRead.draws = s'.pinRead.draws := by simp only [pinRead_draws, h.fixtureLevel, answers, draws]
    have log' : ∃ evs, s.pinRead.log = evs ++ l ∧ s'.pinRead.log = evs ++ l' := by
      simp only [pinRead_log, ← level]
      exact events_cons _ log
    exact ⟨cfg, noMirror, clk, ce, peer', fifo, answers', draws', ioFails, fun _ => rfl,
      fun _ => by simp only [perform_sample_shreg, received, level], latch, log'⟩

/-- The verdicts come to two engines in lockstep alike. -/
theorem Lockstep.nextFails (h : Lockstep l l' K s s') : s.nextFails = s'.nextFails := by
  simp only [State.nextFails, h.cfg, h.ioFails]

theorem Lockstep.takeVerdict (h : Lockstep l l' K s s') : Lockstep l l' K s.takeVerdict s'.takeVerdict :=
  { h with ioFails := by simp only [takeVerdict_ioFails, h.cfg, h.ioFails] }

/-- Two runs of the same operations, all of them performed or up to the same failure. -/
theorem Lockstep.runOps (h : Lockstep l l' K s s') {ops : List PinOp} {K' : Known} (known : trackAll K ops = some K') :
    (∃ t t', runOps ops s = .completed t ∧ runOps ops s' = .completed t' ∧ Lockstep l l' K' t t') ∨
      (∃ K'' t t', runOps ops s = .failed t ∧ runOps ops s' = .failed t' ∧ Lockstep l l' K'' t t') := by
  induction ops generalizing s s' K with
  | nil =>
    obtain rfl : K = K' := by simpa [trackAll] using known
    exact .inl ⟨s, s', rfl, rfl, h⟩
  | cons op ops ih =>
    obtain ⟨K₁, one, rest⟩ := Option.bind_eq_some_iff.mp known
    simp only [Machine.runOps, ← h.nextFails]
    by_cases hf : s.nextFails = true
    · simp only [if_pos hf]
      exact .inr ⟨K, _, _, rfl, rfl, h.takeVerdict⟩
    · simp only [if_neg hf]
      exact ih (h.takeVerdict.perform one) rest

/-- What two commands that ended alike have in common. -/
structure SameEnd (l l' : List PinEvent) (t t' : State) : Prop where
  log : ∃ evs, t.log = evs ++ l ∧ t'.log = evs ++ l'
  result : t.result = t'.result
  status : t.status = t'.status
  peer : t.peer = t'.peer

theorem Lockstep.endWith (h : Lockstep l l' K s s') (st : Status) (r : Half) :
    SameEnd l l' (s.endWith st r) (s'.endWith st r) := ⟨h.log, rfl, rfl, h.peer⟩

theorem Lockstep.finish (h : Lockstep l l' K s s') {e : Ending} (he : e.fits K = true) :
    SameEnd l l' (finish e s) (finish e s') := by
  cases e <;> simp only [Machine.finish]
  case confirm | fromBcd => exact h.endWith _ _
  case byteRead | fieldRead =>
    rw [h.shreg he]
    exact h.endWith _ _
  case toBcd v =>
    rw [h.cfg]
    split <;> exact h.endWith _ _

/-- The cleanup of io-error, which may fail itself, sees no data line. -/
theorem Lockstep.ioError (h : Lockstep l l' K s s') : SameEnd l l' (ioError s) (ioError s') := by
  unfold Machine.ioError
  rw [← h.nextFails]
  split
  · exact h.takeVerdict.endWith _ _
  · exact ⟨events_cons _ h.log, rfl, rfl, h.takeVerdict.peerAfterWrite .ce _ (by simp)⟩

end

/-- One command from two states in lockstep of which nothing is known but the environment. -/
theorem runPlan_sameEnd (i : Instr) {l l' : List PinEvent} {s s' : State}
    (h : Lockstep l l' Known.start (s.accept i) (s'.accept i)) :
    SameEnd l l' (runPlan (planOf i) (s.accept i)) (runPlan (planOf i) (s'.accept i)) := by
  obtain ⟨K, known, fits⟩ := planOf_tracked i
  simp only [runPlan, accept_seq, List.drop_zero]
  obtain ⟨t, t', ht, ht', same⟩ | ⟨K', t, t', ht, ht', same⟩ := h.runOps known
  · simpa only [ht, ht'] using same.finish fits
  · simpa only [ht, ht'] using same.ioError

/-- Settles O40: nothing is known of the engine at the start, and a command sets what it reads before it reads it. -/
theorem commandsDoNotDependOnWhatRanBefore : Obligations.CommandsDoNotDependOnWhatRanBefore := by
  intro s s' t t' i idle idle' cfg noMirror clk ce peer fifo answers draws ioFails ht ht'
  have start : Lockstep s.log s'.log Known.start (s.accept i) (s'.accept i) :=
    ⟨cfg, noMirror, clk, ce, peer, fifo, answers, draws, ioFails, nofun, nofun, nofun, [], rfl, rfl⟩
  obtain ⟨⟨evs, hlog, hlog'⟩, result, status, samePeer⟩ := runPlan_sameEnd i start
  obtain rfl : runPlan (planOf i) (s.accept i) = t := by simpa [exec_idle i s idle] using ht
  obtain rfl : runPlan (planOf i) (s'.accept i) = t' := by simpa [exec_idle i s' idle'] using ht'
  exact ⟨⟨evs.reverse, by simp [State.trace, hlog], by simp [State.trace, hlog']⟩, result, status, samePeer⟩

end Sys2Proof.Machine
end

section
/-!
PROOFS. The canonical form of the peer's registers (spec/20_memory.md R44): the statement O56.
-/
namespace Sys2Proof.Machine

/-- No command, whatever fails, breaks the canonical form. -/
theorem runPlan_memInv (p : Plan) {s : State} (h : MemInv s) : MemInv (runPlan p s) :=
  runPlan_induct (P := fun s t => MemInv s → MemInv t) (fun _ h => h) (fun _ _ _ first second h => second (first h))
    (fun _ h => h) (fun op _ h => State.wf_perform op h) (fun _ h => State.wf_pinWrite .ce false h) (fun _ _ _ h => h) p s h

/-- Settles O56, by what a step can do: only a command touches the peer. -/
theorem memoryStaysCanonical : Obligations.MemoryStaysCanonical := by
  intro s t hs hstep
  obtain ⟨u, hu, what⟩ := step_cases s
  obtain rfl : u = t := by simpa [hu] using hstep
  obtain ⟨i, -, rfl⟩ | ⟨-, -, rfl⟩ | ⟨i, d, ds, -, -, -, rfl⟩ | ⟨r, d, ds, -, -, -, rfl⟩ := what
  · exact runPlan_memInv _ hs
  · exact hs
  · exact runPlan_memInv _ hs
  · exact hs

end Sys2Proof.Machine
end

section
/-!
PROOFS. The FIFO and the mirror loopback (spec/20_memory.md R49, spec/90_conflicts.md C3): the statement O21.
-/
namespace Sys2Proof.Machine

/-- A received byte is the one whose bits are the levels read. -/
theorem receivedByte_eq {s : State} {b : Byte} (h : ∀ k < 8, (beforeBit k s).readLevel = b.getLsbD k) : receivedByte s = b :=
  BitVec.eq_of_getLsbD_eq fun k hk => (byteOf_bit _ hk).trans (h k hk)

/-- A bit sent is put at the end of the queue. -/
theorem sendBit_fifo (src : ByteSrc) (k : Nat) {s : State} (line : s.cfg.line = .fifoLoopback) (clk : s.clkOut = false) :
    (performAll (sendBit src k) s).fifo = s.fifo ++ [(s.sendReg src k).getLsbD k] := by
  simp [sendBit, State.fifoAfterWrite, fifoAfterWrite, line, clk]

/-- A bit received is the head of the queue, which its pulse takes. -/
theorem receiveBit_fifo (k : Nat) {s : State} (line : s.cfg.line = .fifoLoopback) (clk : s.clkOut = false) :
    (performAll (receiveBit k) s).fifo = s.fifo.tail := by
  simp [receiveBit, State.fifoAfterWrite, fifoAfterWrite, line, clk]

/-- A byte sent is put at the end of the queue, bit 0 first. -/
theorem sendByte_fifo (src : ByteSrc) {s : State} (line : s.cfg.line = .fifoLoopback) (clk : s.clkOut = false) :
    (performAll (sendByte src) s).fifo = s.fifo ++ (List.range 8).map (src.value s).getLsbD := by
  have key : ∀ k, (afterBits src k s).fifo = s.fifo ++ (List.range k).map (src.value s).getLsbD := by
    intro k
    induction k with
    | zero => simp [afterBits]
    | succ k ih =>
      obtain ⟨low, -, reg⟩ := afterBits_engine src k s clk
      rw [afterBits_succ, sendBit_fifo src k (by simpa [afterBits] using line) low, ih, reg, List.range_succ]
      simp
  rw [← afterBits_eight, key]

/-- The bits already received are gone from the queue. -/
theorem beforeBit_fifo (k : Nat) {s : State} (line : s.cfg.line = .fifoLoopback) (clk : s.clkOut = false) :
    (beforeBit k s).fifo = s.fifo.drop k := by
  induction k with
  | zero => rfl
  | succ k ih =>
    rw [beforeBit_succ, receiveBit_fifo k (by simpa [beforeBit] using line) (beforeBit_engine k s clk).1, ih, List.tail_drop]

/-- A byte received from the FIFO loopback that holds the bits of `b`. -/
theorem receiveByte_fifo {s : State} {b : Byte} (line : s.cfg.line = .fifoLoopback) (clk : s.clkOut = false)
    (queue : s.fifo = (List.range 8).map b.getLsbD) :
    receivedByte s = b ∧ (performAll receiveByte s).fifo = [] := by
  refine ⟨receivedByte_eq fun k hk => ?_, ?_⟩
  · have line' : (beforeBit k s).cfg.line = .fifoLoopback := by simpa [beforeBit] using line
    simp [State.readLevel, State.fixtureLevel, line', beforeBit_fifo k line clk, queue, List.head?_drop, hk]
  · exact (beforeBit_fifo 8 line clk).trans (by simp [queue])

/-- Under the mirror loopback every bit received is the level last driven. -/
theorem receivedByte_mirror {s : State} (line : s.cfg.line = .mirrorLoopback) (clk : s.clkOut = false) :
    receivedByte s = if s.datOut then 0xFF else 0x00 := by
  refine receivedByte_eq fun k hk => ?_
  have line' : (beforeBit k s).cfg.line = .mirrorLoopback := by simpa [beforeBit] using line
  have bits : ∀ (l : Level) (k : Fin 8), (if l then 0xFF else 0x00 : Byte).getLsbD k = l := by decide
  simp only [State.readLevel, State.fixtureLevel, line', Option.getD_some, (beforeBit_engine k s clk).2]
  exact (bits s.datOut ⟨k, hk⟩).symm

/-- A completed run of pin operations and the end of its command, from a ready engine. -/
theorem exec_ready {i : Instr} {s t : State} (ready : Ready s) (h : exec i s = .next t) :
    t = finish (planOf i).ending (performAll (planOf i).ops (s.accept i)) :=
  (Host.Outcome.next.inj ((exec_reliable i s ready.idle ready.reliable).symm.trans h)).symm

/-- Settles O21: the bits WRBYTE queued are those RDBYTE takes; the mirror gives back the last of them. -/
theorem loopbackReturnsTheByteSent : Obligations.LoopbackReturnsTheByteSent := by
  intro s t u v hs wrote read
  obtain ⟨a, ha⟩ : ∃ a, a = performAll (sendByte (.lit (trunc8 v))) (s.accept (.wrbyte v)) := ⟨_, rfl⟩
  have sent : Sent (trunc8 v) _ a := ha ▸ sendByte_spec (.lit (trunc8 v)) (s.accept (.wrbyte v))
  have ht : PortOnly a t := by
    rw [exec_ready hs.toReady wrote, ha]
    exact finish_portOnly _ _
  have cfg : t.cfg = s.cfg := by rw [ht.cfg, ha]; simp
  have hu := exec_ready ⟨ht.idle, by rw [cfg]; exact hs.reliable⟩ read
  have clk : (t.accept .rdbyte).clkOut = false := ht.clk.trans sent.clk
  have result : u.result = zext16 (receivedByte (t.accept .rdbyte)) := by
    rw [hu, ← (receiveByte_spec _).shreg]; rfl
  refine ⟨fun line empty => ?_, fun line => ?_⟩
  · have queue : (t.accept .rdbyte).fifo = (List.range 8).map (trunc8 v).getLsbD := by
      rw [accept_fifo, ht.fifo, ha, sendByte_fifo (s := s.accept (.wrbyte v)) _ line hs.clk, accept_fifo, empty]
      rfl
    obtain ⟨byte, taken⟩ := receiveByte_fifo (by rw [accept_cfg, cfg, line]) clk queue
    exact ⟨by rw [result, byte], by rw [hu]; exact taken⟩
  · rw [result, receivedByte_mirror (by rw [accept_cfg, cfg, line]) clk, accept_datOut, ht.dat, sent.dat]
    split <;> rfl

end Sys2Proof.Machine
end

section
/-!
PROOFS. Write frames at the reference peer (spec/20_memory.md R45): the statements O41 and O42.
-/
namespace Sys2Proof.Machine

/-- The end of a command outside a frame leaves the engine at rest on the peer. -/
theorem PortOnly.onPeer {s t : State} {q : Peer} (h : PortOnly s t) (reliable : s.cfg.pinIoCanFail = false) (clk : s.clkOut = false)
    (ce : s.ceOut = false) (line : s.cfg.line = .referencePeer) (peer : PeerIs q s) (inside : q.outside = false) : OnPeer t where
  idle := h.idle
  reliable := by rw [h.cfg, reliable]
  clk := h.clk.trans clk
  ce := h.ce.trans ce
  line := by rw [h.cfg, line]
  inside := by rw [h.peer, peer.outside, inside]
  noFrame := by rw [h.peer, peer.noFrame]

/-- A canonical static peer is settled when a command is accepted. -/
theorem OnStaticPeer.accept_settled {s : State} (h : OnStaticPeer s) (canonical : MemInv s) (i : Instr) : Settled (s.accept i) :=
  ⟨h.line, h.clk, h.ce, h.inside, h.noFrame, h.static, canonical⟩

/-- The end of a command keeps a settled engine on its static peer. -/
theorem Settled.finish_onStaticPeer {s : State} (h : Settled s) (reliable : s.cfg.pinIoCanFail = false) (e : Ending) :
    OnStaticPeer (finish e s) :=
  have ended := finish_portOnly e s
  ⟨ended.onPeer reliable h.clk h.ce h.line ⟨rfl, rfl, rfl, h.noFrame⟩ h.inside, by rw [ended.peer, h.static]⟩

/-- Settles O41, by the registers after one mapped write frame. -/
theorem wrregAtTheReferencePeer : Obligations.WrregAtTheReferencePeer := by
  intro s a v hs canonical mapped
  obtain ⟨settled, registers⟩ := writeOps_registers a (.lit (trunc8 v)) _ (hs.accept_settled canonical (.wrreg a v)) mapped
  exact ⟨_, exec_reliable _ s hs.idle hs.reliable, rfl, settled.finish_onStaticPeer (by simpa using hs.reliable) _, registers⟩

/-- What a command that ends done leaves alone or sets, given the events of its pin operations. -/
theorem endWith_endsDone {i : Instr} {s : State} {ops : List PinOp} {evs : List PinEvent} (r : Half)
    (log : (performAll ops (s.accept i)).log = evs.reverse ++ s.log) :
    EndsDone s ((performAll ops (s.accept i)).endWith .done r) evs r := by
  constructor <;> simp [State.trace, log]

/-- Settles O42: the frame is performed as any other, and the peer's one effect is to refuse it. -/
theorem wrregOutsideTheReferencePeer : Obligations.WrregOutsideTheReferencePeer := by
  intro s a v hs unmapped
  have frame := writeOps_spec a (.lit (trunc8 v)) (s.accept (.wrreg a v))
  have peer := writeOps_peer a (.lit (trunc8 v)) (s.accept (.wrreg a v)) ⟨hs.line, hs.inside⟩ hs.clk hs.ce
  have refused : s.peer.write s.cfg.wpMask a (trunc8 v) = s.peer.refuse := by simp [Peer.write, unmapped]
  simp only [accept_peer, accept_cfg, Peer.tick_nil hs.static, ByteSrc.value, refused] at peer
  exact ⟨_, exec_reliable _ s hs.idle hs.reliable, endWith_endsDone 0 frame.log, peer.outside,
    fun x => congrArg (Memory.read · x) peer.mem⟩

end Sys2Proof.Machine
end

section
/-!
PROOFS. Read frames at the reference peer (spec/20_memory.md R46), and the time that passes before them (R48): the statements O43, O44 and
O50.
-/
namespace Sys2Proof.Machine

/-! ### Read frames that are answered (R46) -/

/-- The read address of a mapped write address is answered with its register. -/
theorem Memory.answer_readAddr (m : Memory) {w : Byte} (mapped : isWriteAddr w.toNat = true) :
    m.answer (w + 1) = some (m.read w.toNat) := by
  have address : ∀ w : Byte, isWriteAddr w.toNat = true → readDirection (w + 1) = true ∧ (w + 1).toNat - 1 = w.toNat := by decide
  obtain ⟨odd, back⟩ := address w mapped
  simp only [Memory.answer, odd, back, mapped, Bool.not_true, Bool.or_self, Bool.false_eq_true, if_false]

/-- No other address is answered. -/
theorem Memory.answer_none (m : Memory) {a : Byte} (h : ∀ w : Byte, isWriteAddr w.toNat = true → a ≠ w + 1) : m.answer a = none := by
  have address : ∀ a : Byte, readDirection a = true → isWriteAddr (a.toNat - 1) = true → isWriteAddr (a - 1).toNat = true := by decide
  unfold Memory.answer
  split
  · rfl
  · rename_i answered
    obtain ⟨odd, mapped⟩ : readDirection a = true ∧ isWriteAddr (a.toNat - 1) = true := by simpa using answered
    exact absurd (BitVec.sub_add_cancel a 1).symm (h (a - 1) (address a odd mapped))

/-- What `t` has of `s` after a command of one read frame at the read address of the register `w`, before which time may have passed
(R46, R48). -/
structure ReadBack (w : Byte) (s t : State) : Prop where
  onPeer : OnPeer t
  noDraw : NoDraw s t
  mem : t.peer.mem = s.peer.tick.mem
  ticks : t.peer.ticks = s.peer.tick.ticks
  shreg : t.shreg = s.peer.tick.mem.read w.toNat

/-- A command of one read frame at a mapped read address. -/
theorem exec_readBack {i : Instr} {w : Byte} {s : State} (hs : OnPeer s) (plan : (planOf i).ops = readOps (w + 1))
    (mapped : isWriteAddr w.toNat = true) :
    ∃ u, exec i s = .next (finish (planOf i).ending u) ∧ ReadBack w s (finish (planOf i).ending u) := by
  have frame := (readOps_spec (w + 1) (s.accept i)).1
  obtain ⟨byte, peer, -, noDraw, -⟩ := readOps_peer (w + 1) (s.accept i) ⟨hs.line, hs.inside⟩ hs.clk hs.ce
    (Memory.answer_readAddr _ mapped)
  have ended := finish_portOnly (planOf i).ending (performAll (readOps (w + 1)) (s.accept i))
  refine ⟨_, plan ▸ exec_reliable i s hs.idle hs.reliable, ⟨?_, ?_, ?_, ?_, ?_⟩⟩
  · exact ended.onPeer (by simpa using hs.reliable) frame.clk frame.ce (by simpa using hs.line) peer
      ((Peer.tick_outside _).trans hs.inside)
  · exact ⟨ended.answers.trans noDraw.answers, ended.draws.trans noDraw.draws⟩
  · exact (congrArg Peer.mem ended.peer).trans peer.mem
  · exact (congrArg Peer.ticks ended.peer).trans peer.ticks
  · exact ended.shreg.trans (frame.shreg.trans byte)

/-- While no time passes, the byte read is the register's and no register changes. -/
theorem ReadBack.static {w : Byte} {s t : State} (h : ReadBack w s t) (hs : OnStaticPeer s) :
    t.shreg = s.reg w.toNat ∧ OnStaticPeer t ∧ NoDraw s t ∧ ∀ x, t.reg x = s.reg x := by
  obtain ⟨onPeer, noDraw, mem, ticks, shreg⟩ := h
  rw [Peer.tick_nil hs.static] at mem ticks shreg
  exact ⟨shreg, ⟨onPeer, ticks.trans hs.static⟩, noDraw, fun x => congrArg (Memory.read · x) mem⟩

/-- The write address of a RAM slot, exactly (R57). -/
theorem ramWriteAddr_toNat (i : Nat) : (ramWriteAddr i).toNat = 0xC0 + 2 * (i % 31) :=
  Nat.mod_eq_of_lt (by omega)

/-- Every RAM slot is mapped (R32). -/
theorem ramWriteAddr_mapped (i : Nat) : isWriteAddr (ramWriteAddr i).toNat = true := by
  simp only [ramWriteAddr_toNat, isWriteAddr, Bool.and_eq_true, Bool.or_eq_true, beq_iff_eq, decide_eq_true_eq]
  omega

/-- RDRAM reads at the read address of its slot (R56, R57). -/
theorem planOf_rdram_ops (i : Nat) : (planOf (.rdram i)).ops = readOps (ramWriteAddr i + 1) := by
  have next : ramReadAddr i = ramWriteAddr i + 1 := by
    rw [ramReadAddr, Nat.add_right_comm]
    exact BitVec.ofNat_add _ 1
  rw [← next]
  rfl

/-- A getter is one read frame and the decoding of its byte (R101). -/
theorem planOf_getCmd (f : Field) : planOf f.getCmd = planGet f := by cases f <;> rfl

theorem Field.writeAddr_mapped (f : Field) : isWriteAddr f.writeAddr.toNat = true := by cases f <;> rfl

/-- Settles O43: RDREG, RDRAM and the getters are each one read frame at a mapped read address. -/
theorem readsReturnTheRegister : Obligations.ReadsReturnTheRegister := by
  refine ⟨fun s a hs mapped => ?_, fun s i hs => ?_, fun s f hs => ?_⟩
  · obtain ⟨u, hu, back⟩ := exec_readBack (i := .rdreg (a + 1)) hs.toOnPeer rfl mapped
    obtain ⟨byte, kept⟩ := back.static hs
    exact ⟨_, hu, congrArg zext16 byte, kept⟩
  · obtain ⟨u, hu, back⟩ := exec_readBack hs.toOnPeer (planOf_rdram_ops i) (ramWriteAddr_mapped i)
    obtain ⟨byte, kept⟩ := back.static hs
    rw [ramWriteAddr_toNat] at byte
    exact ⟨_, hu, congrArg zext16 byte, kept⟩
  · obtain ⟨u, hu, back⟩ := exec_readBack (i := f.getCmd) hs.toOnPeer (by rw [planOf_getCmd]; rfl) f.writeAddr_mapped
    obtain ⟨byte, kept⟩ := back.static hs
    rw [planOf_getCmd] at hu byte kept
    exact ⟨_, hu, congrArg (fun b => BitVec.ofNat 16 (f.getValue b)) byte, kept⟩

/-! ### Read frames that are refused (R46) -/

/-- The peer has taken an address that it does not answer; it may have refused the frame already. -/
structure Unanswered (p : Peer) : Prop where
  addressed : 8 ≤ p.n
  noRegister : p.mem.answer p.abyte = none

theorem Unanswered.answer {p : Peer} (h : Unanswered p) : p.answer = none := by
  simp [Peer.answer, h.noRegister]

theorem Unanswered.refuse {p : Peer} (h : Unanswered p) : Unanswered p.refuse := ⟨h.addressed, h.noRegister⟩

theorem Unanswered.pulse {p : Peer} (h : Unanswered p) (d : Level) (oe : Bool) : Unanswered (p.pulse d oe) := by
  have next : 8 ≤ p.n + 1 := Nat.le_succ_of_le h.addressed
  rw [Peer.pulse, if_neg (Nat.not_lt.mpr h.addressed)]
  split_ifs
  exacts [h.refuse, ⟨next, h.noRegister⟩, ⟨next, h.noRegister⟩, h.refuse, ⟨next, h.noRegister⟩]

theorem Unanswered.peerAfterRead {s : State} (h : Unanswered s.peer) : Unanswered s.peerAfterRead := by
  unfold State.peerAfterRead Peer.afterRead
  cases s.cfg.line
  case referencePeer =>
    dsimp only
    split_ifs
    exacts [h, h.refuse, h]
  all_goals exact h

/-- A write to the clock line can be a pulse at the peer, and nothing else. -/
theorem peerAfterWrite_clk (l : Level) (s : State) :
    s.peerAfterWrite .clk l = s.peer ∨ s.peerAfterWrite .clk l = s.peer.pulse s.datOut s.datOe := by
  unfold State.peerAfterWrite Peer.afterWrite
  cases s.cfg.line
  case referencePeer =>
    cases l
    · exact .inl (ite_self _)
    · dsimp only
      split_ifs
      exacts [.inl rfl, .inr rfl, .inl rfl]
  all_goals exact .inl rfl

theorem Unanswered.peerAfterClock {s : State} (h : Unanswered s.peer) (l : Level) : Unanswered (s.peerAfterWrite .clk l) := by
  obtain same | pulse := peerAfterWrite_clk l s
  · rw [same]; exact h
  · rw [pulse]; exact h.pulse _ _

/-- A received bit is one read and one clock pulse, neither of which makes the peer answer. -/
theorem Unanswered.receiveBit {s : State} (h : Unanswered s.peer) (k : Nat) : Unanswered (performAll (receiveBit k) s).peer := by
  have read : Unanswered ((PinOp.sample k).perform s).peer := h.peerAfterRead
  have high : Unanswered (PinOp.clkHigh.perform ((PinOp.sample k).perform s)).peer := read.peerAfterClock true
  exact high.peerAfterClock false

/-- A byte of a read frame that is not answered is one of draws (R46, U3, U4). -/
theorem Unanswered.allDraws {s : State} (line : s.cfg.line = .referencePeer) (h : Unanswered s.peer) : AllDraws s := by
  have still : ∀ k, Unanswered (beforeBit k s).peer := by
    intro k
    induction k with
    | zero => exact h
    | succ k ih => rw [beforeBit_succ]; exact ih.receiveBit k
  intro k _
  have line' : (beforeBit k s).cfg.line = .referencePeer := by simpa [beforeBit] using line
  simp [State.fixtureLevel, line', (still k).answer]

/-- Settles O44: the peer answers none of the eight reads, and its one effect is to refuse the frame. -/
theorem rdregOutsideTheReferencePeer : Obligations.RdregOutsideTheReferencePeer := by
  intro s a hs unmapped
  have silent : (s.accept (.rdreg a)).peer.tick.mem.answer a = none := Memory.answer_none _ unmapped
  have engaged : Engaged (s.accept (.rdreg a)) := ⟨hs.line, hs.inside⟩
  have frame := (readOps_spec a (s.accept (.rdreg a))).1
  have peer := readOps_refused a (s.accept (.rdreg a)) engaged hs.clk hs.ce silent
  have byte : frameByte a (s.accept (.rdreg a)) = byteOf s.draw := by
    have sent : Sent a _ (beforeSamples a (s.accept (.rdreg a))) := sendByte_spec (.lit a) _
    have unanswered : Unanswered (beforeSamples a (s.accept (.rdreg a))).peer := by
      rw [afterAddress a _ engaged hs.clk hs.ce]
      exact ⟨le_rfl, silent⟩
    rw [frameByte, receivedByte_draws _ (unanswered.allDraws (by simpa [beforeSamples] using hs.line)),
      draw_of_inputs (s := s) sent.answers sent.draws]
  rw [Peer.tick_nil (p := (s.accept (.rdreg a)).peer) hs.static] at peer
  rw [byte] at frame
  refine ⟨_, exec_reliable _ s hs.idle hs.reliable, ?_, peer.outside, fun x => congrArg (Memory.read · x) peer.mem⟩
  rw [← frame.shreg]
  exact endWith_endsDone _ (by rw [frame.shreg]; exact frame.log)

/-! ### Time (R48) -/

/-- RDREG of the seconds, RDRAM and the getters are each one read frame at a mapped read address. -/
theorem readCommand_plan {i : Instr}
    (h : i = .getsec ∨ i = .getmin ∨ i = .gethour ∨ i = .getday ∨ i = .getmonth ∨ i = .getwday ∨ i = .getyear ∨ i = .rdreg 0x81 ∨
      ∃ k, i = .rdram k) :
    ∃ w : Byte, isWriteAddr w.toNat = true ∧ (planOf i).ops = readOps (w + 1) := by
  obtain rfl | rfl | rfl | rfl | rfl | rfl | rfl | rfl | ⟨k, rfl⟩ := h
  · exact ⟨_, Field.writeAddr_mapped .second, rfl⟩
  · exact ⟨_, Field.writeAddr_mapped .minute, rfl⟩
  · exact ⟨_, Field.writeAddr_mapped .hour, rfl⟩
  · exact ⟨_, Field.writeAddr_mapped .day, rfl⟩
  · exact ⟨_, Field.writeAddr_mapped .month, rfl⟩
  · exact ⟨_, Field.writeAddr_mapped .weekday, rfl⟩
  · exact ⟨_, Field.writeAddr_mapped .year, rfl⟩
  · exact ⟨_, Field.writeAddr_mapped .second, rfl⟩
  · exact ⟨_, ramWriteAddr_mapped k, planOf_rdram_ops k⟩

/-- Settles O50: a command of one read frame leaves what the passage of time before it has left. -/
theorem timeChangesOnlyTheRunningClock : Obligations.TimeChangesOnlyTheRunningClock := by
  intro s i hs canonical hi
  obtain ⟨w, mapped, plan⟩ := readCommand_plan hi
  obtain ⟨u, hu, back⟩ := exec_readBack hs plan mapped
  have passed := Peer.tick_passed canonical
  have reg : ∀ x, (finish (planOf i).ending u).reg x = s.peer.tick.mem.read x := fun x => congrArg (Memory.read · x) back.mem
  refine ⟨_, hu, back.onPeer, back.ticks.trans passed.ticks, ?_⟩
  simp only [reg]
  exact ⟨passed.fixed _ (.inl rfl), passed.fixed _ (.inr (.inl rfl)), fun k _ => passed.fixed _ (.inr (.inr (by omega))),
    passed.halt, passed.halted⟩

end Sys2Proof.Machine
end

section
/-!
PROOFS. The decoder and the encoder (spec/30_encoding.md R60 to R66): the statements O1, O2, O3, O4 and O5.
-/
namespace Sys2Proof.Machine

/-! ### What the decoder answers (R63, R66) -/

/-- An assigned `op` chooses the command, unless it is internal and only public ones are accepted (R63). -/
theorem decode_of_code {d : Descriptor} {o : Opcode} (h : opField d = o.code) (publicOnly : Bool) :
    decode publicOnly d =
      if publicOnly && o.internal then .illegal (.internalOpcode o) else .accepted (operandsOf o d) := by
  simp only [decode, h, Opcode.ofCode_code]

/-- An `op` that is no command's is reserved (R66). -/
theorem decode_of_reserved {d : Descriptor} (h : ∀ o : Opcode, o.code ≠ opField d) (publicOnly : Bool) :
    decode publicOnly d = .illegal (.reservedOpcode (opField d)) := by
  simp only [decode, Opcode.ofCode_none h]

/-- The descriptor of a command carries its opcode, and its operands where they fit their fields. -/
theorem encode_carries (i : Instr) : Laws.OpcodeField.Statement i := by
  cases i
  exacts [Laws.OpcodeField.d2b _, Laws.OpcodeField.b2d _, Laws.OpcodeField.wrbyte _, Laws.OpcodeField.rdbyte,
    Laws.OpcodeField.rdreg _, Laws.OpcodeField.wrreg _ _, Laws.OpcodeField.pwrreg _ _, Laws.OpcodeField.setyear _,
    Laws.OpcodeField.setmonth _, Laws.OpcodeField.setday _, Laws.OpcodeField.sethour _, Laws.OpcodeField.setmin _,
    Laws.OpcodeField.setsec _, Laws.OpcodeField.setwday _, Laws.OpcodeField.getyear, Laws.OpcodeField.getmonth,
    Laws.OpcodeField.getday, Laws.OpcodeField.gethour, Laws.OpcodeField.getmin, Laws.OpcodeField.getsec,
    Laws.OpcodeField.getwday, Laws.OpcodeField.start, Laws.OpcodeField.pause, Laws.OpcodeField.rdram _,
    Laws.OpcodeField.wrram _ _, Laws.OpcodeField.setdatetime _ _ _ _ _ _ _]

/-- Settles O1: the opcode of the encoded command is decoded back, and so are its operands. -/
theorem decodeOfEncodeIsTheCommand : Obligations.DecodeOfEncodeIsTheCommand := by
  intro i publicOnly wf
  obtain ⟨code, operands⟩ := encode_carries i
  rw [decode_of_code code, operands wf]

/-- Settles O2: a row is selected exactly when `op` is its opcode, and the decoder looks at `op` alone. -/
theorem decoderReadsTheOpcodeAlone : Obligations.DecoderReadsTheOpcodeAlone := by
  refine fun d publicOnly => ⟨fun o selected => ?_, fun unselected => ?_⟩
  · rw [decode_of_code ((o.selects_iff d).mp selected)]
    refine ⟨fun allowed => ⟨operandsOf o d, if_neg ?_, operandsOf_opcode o d⟩, fun restricted internal => if_pos ?_⟩
    · rcases allowed with h | h <;> simp [h]
    · simp [restricted, internal]
  · refine decode_of_reserved (fun o code => ?_) publicOnly
    have selected : o.selects d = true := (o.selects_iff d).mpr code.symm
    simp [unselected o] at selected

/-- The operands of a command depend on the fields it uses alone (R61). -/
theorem operandsOf_congr {o : Opcode} {d d' : Descriptor}
    (a : o ∈ [Opcode.rdreg, .wrreg, .pwrreg, .rdram, .wrram] → aField d = aField d')
    (v0 : o ∈ [Opcode.d2b, .b2d, .wrbyte, .wrreg, .pwrreg, .setyear, .setmonth, .setday, .sethour, .setmin, .setsec, .setwday,
      .wrram, .setdatetime] → vField 0 d = vField 0 d')
    (v : o = .setdatetime → ∀ k, 1 ≤ k → k ≤ 6 → vField k d = vField k d') : operandsOf o d = operandsOf o d' := by
  cases o
  case rdbyte | getyear | getmonth | getday | gethour | getmin | getsec | getwday | start | pause => rfl
  case rdreg | rdram => simp only [operandsOf, a (by decide)]
  case d2b | b2d | wrbyte | setyear | setmonth | setday | sethour | setmin | setsec | setwday =>
    simp only [operandsOf, v0 (by decide)]
  case wrreg | pwrreg | wrram => simp only [operandsOf, a (by decide), v0 (by decide)]
  case setdatetime =>
    have others (k : Nat) (hk : 1 ≤ k ∧ k ≤ 6) : vField k d = vField k d' := v rfl k hk.1 hk.2
    simp only [operandsOf, v0 (by decide), others 1 (by decide), others 2 (by decide), others 3 (by decide),
      others 4 (by decide), others 5 (by decide), others 6 (by decide)]

/-- Settles O3: two descriptors of one opcode decode alike where the used fields agree. -/
theorem unusedFieldsAreIgnored : Obligations.UnusedFieldsAreIgnored := by
  intro o d d' publicOnly code code' a v0 v
  rw [decode_of_code code, decode_of_code code', operandsOf_congr a v0 v]

/-- Settles O4, by running the decoder on the ten descriptors. -/
theorem sampleDescriptorsDecode : Obligations.SampleDescriptorsDecode := by
  unfold Obligations.SampleDescriptorsDecode
  decide

/-! ### Illegal descriptors (R66, R63) -/

/-- No command has its opcode in a reserved range (R66). -/
theorem code_ne_of_reserved {c : Byte}
    (h : c = 0x00 ∨ (0x03 ≤ c ∧ c ≤ 0x0F) ∨ (0x12 ≤ c ∧ c ≤ 0x1F) ∨ (0x23 ≤ c ∧ c ≤ 0x2F) ∨ (0x37 ≤ c ∧ c ≤ 0x3F) ∨
      (0x47 ≤ c ∧ c ≤ 0x4F) ∨ (0x52 ≤ c ∧ c ≤ 0x5F) ∨ (0x62 ≤ c ∧ c ≤ 0x6F) ∨ 0x71 ≤ c) (o : Opcode) : o.code ≠ c := by
  rintro rfl
  revert h
  cases o <;> decide

/-- The seven internal codes are those of internal commands (R63). -/
theorem internal_of_code {c : Byte} (h : c ∈ [(0x01 : Byte), 0x02, 0x10, 0x11, 0x20, 0x21, 0x22]) :
    ∃ o : Opcode, o.internal = true ∧ c = o.code := by
  have mapped : c ∈ [Opcode.d2b, .b2d, .wrbyte, .rdbyte, .rdreg, .wrreg, .pwrreg].map Opcode.code := h
  obtain ⟨o, listed, rfl⟩ := List.mem_map.mp mapped
  have internal : ∀ o ∈ [Opcode.d2b, .b2d, .wrbyte, .rdbyte, .rdreg, .wrreg, .pwrreg], o.internal = true := by decide
  exact ⟨o, internal o listed, rfl⟩

/-- An illegal descriptor is taken from the queue and reported, and nothing else happens. -/
theorem step_of_illegal {s : State} {d : Descriptor} {ds : List Descriptor} {r : Illegal} (idle : s.active = none)
    (queue : s.cmds = d :: ds) (illegal : decode s.cfg.publicOnly d = .illegal r) :
    step s = .next { s with cmds := ds, status := .illegal, result := 0,
                            reports := { status := .illegal, result := 0 } :: s.reports } := by
  simp only [step, idle, queue, illegal, State.takeIllegal, State.endWith]

/-- Settles O5: the decoder refuses a reserved `op`, and an internal one where only public ones are accepted. -/
theorem illegalDescriptorOnlyReportsIllegal : Obligations.IllegalDescriptorOnlyReportsIllegal := by
  intro s d ds idle queue op
  obtain ⟨r, illegal⟩ : ∃ r, decode s.cfg.publicOnly d = .illegal r := by
    rcases op with reserved | ⟨publicOnly, listed⟩
    · exact ⟨_, decode_of_reserved (code_ne_of_reserved reserved) _⟩
    · obtain ⟨o, internal, code⟩ := internal_of_code listed
      exact ⟨_, (decode_of_code code _).trans (if_pos (by simp [publicOnly, internal]))⟩
  exact ⟨⟨r, illegal⟩, step_of_illegal idle queue illegal⟩

end Sys2Proof.Machine
end

section
/-!
PROOFS. Frames and their operands (spec/30_encoding.md R52 to R58): the statements O24, O28, O30 and O35.
-/
namespace Sys2Proof.Machine

/-! ### The layout of a frame (R52, R53) -/

theorem framesEvents_singleton (f : Frame) : framesEvents [f] = f.events := by simp [framesEvents]

/-- Every frame has 50 events, raises chip-select first and lowers it last. -/
theorem Frame.events_bounds (f : Frame) :
    f.events.length = 50 ∧ f.events.head? = some (.w .ce true) ∧ f.events.getLast? = some (.w .ce false) := by
  cases f <;> exact ⟨rfl, rfl, rfl⟩

/-- The bits of a write frame, address then data (R52). -/
theorem Frame.write_bitAt (a v : Byte) {k : Nat} (hk : k < 8) :
    bitAt (Frame.write a v).events (1 + 3 * k) (.w .dat (a.getLsbD k)) ∧
      bitAt (Frame.write a v).events (25 + 3 * k) (.w .dat (v.getLsbD k)) := by
  interval_cases k <;> exact ⟨rfl, rfl⟩

/-- The bits of a read frame, address then data (R53). -/
theorem Frame.read_bitAt (a r : Byte) {k : Nat} (hk : k < 8) :
    bitAt (Frame.read a r).events (1 + 3 * k) (.w .dat (a.getLsbD k)) ∧
      bitAt (Frame.read a r).events (25 + 3 * k) (.r (r.getLsbD k)) := by
  interval_cases k <;> exact ⟨rfl, rfl⟩

/-- The low byte of an operand has the operand's own low bits (R59). -/
theorem trunc8_getLsbD (v : Nat) {k : Nat} (hk : k < 8) : (trunc8 v).getLsbD k = v.testBit k := by
  rw [trunc8, BitVec.getLsbD_ofNat, decide_eq_true hk, Bool.true_and]

/-- A byte in `RESULT` keeps its bits. -/
theorem zext16_getLsbD (b : Byte) {k : Nat} (hk : k < 8) : (zext16 b).getLsbD k = b.getLsbD k := by
  have fits : k < 16 := by omega
  rw [zext16, BitVec.getLsbD_setWidth, decide_eq_true fits, Bool.true_and]

/-- RDREG on a ready engine is one read frame, and its result the byte of that frame (R90). -/
theorem exec_rdreg_endsDone (a : Byte) {s : State} (ready : Ready s) :
    ∃ t r, exec (.rdreg a) s = .next t ∧ EndsDone s t (framesEvents [.read a r]) (zext16 r) := by
  have frame := (readOps_spec a (s.accept (.rdreg a))).1
  refine ⟨_, frameByte a (s.accept (.rdreg a)), exec_reliable _ s ready.idle ready.reliable, ?_⟩
  rw [← frame.shreg]
  exact endWith_endsDone _ (by rw [frame.shreg]; exact frame.log)

/-- Settles O24, by the layouts of the one frame of WRREG and of RDREG. -/
theorem frameLayouts : Obligations.FrameLayouts := by
  refine ⟨fun s a v ready => ?_, fun s a ready => ?_⟩
  · obtain ⟨t, r, ht, trace⟩ := exec_trace (.wrreg a v) s ready
    have frame : eventsOf r (.wrreg a v) = (Frame.write a (trunc8 v)).events := framesEvents_singleton _
    obtain ⟨length, first, last⟩ := (Frame.write a (trunc8 v)).events_bounds
    refine ⟨t, _, ht, frame ▸ trace, length, first, last, fun k hk => ?_⟩
    rw [← trunc8_getLsbD v hk]
    exact Frame.write_bitAt a (trunc8 v) hk
  · obtain ⟨t, r, ht, done⟩ := exec_rdreg_endsDone a ready
    obtain ⟨length, first, last⟩ := (Frame.read a r).events_bounds
    refine ⟨t, _, ht, framesEvents_singleton _ ▸ done.trace, length, first, last, fun k hk => ?_⟩
    rw [done.result, zext16_getLsbD r hk]
    exact Frame.read_bitAt a r hk

/-! ### The operands of the setters (R58) -/

/-- A setter is the protected write of its field's byte (R110). -/
theorem planOf_setCmd (f : Field) (v : Nat) : planOf (f.setCmd v) = planSet f v := by cases f <;> rfl

theorem exec_setCmd_endsDone (f : Field) (v : Nat) {s : State} (ready : Ready s) :
    ∃ t, exec (f.setCmd v) s = .next t ∧ EndsDone s t (framesEvents (protectedFrames f.writeAddr (f.setByte v))) 0 := by
  have write := protectedOps_spec f.writeAddr (.lit (f.setByte v)) (s.accept (f.setCmd v))
  refine ⟨_, exec_reliable _ s ready.idle ready.reliable, ?_⟩
  rw [planOf_setCmd]
  exact endWith_endsDone 0 write.log

/-- D2B of a number of at most two digits is valid BCD, and B2D gives the number back (R72). -/
theorem d2b_valid {n : Nat} (h : n < 100) : validBcd (d2b n) = true ∧ b2d (d2b n) = n := by
  have all : ∀ n < 100, validBcd (d2b n) = true ∧ b2d (d2b n) = n := by decide
  exact all n h

/-- Every field's modulus leaves at most two digits (R100). -/
theorem Field.mod_modulus_lt (f : Field) (v : Nat) : v % f.modulus < 100 := by
  have modulus : 0 < f.modulus ∧ f.modulus ≤ 100 := by cases f <;> decide
  exact (Nat.mod_lt v modulus.1).trans_le modulus.2

/-- Settles O28: the remainder by the field's modulus has at most two digits, which D2B encodes exactly. -/
theorem setterOperandsWrap : Obligations.SetterOperandsWrap := by
  intro s v f M w ready row
  obtain ⟨rfl, rfl⟩ : M = f.modulus ∧ w = f.writeAddr := by
    cases f <;> simpa [Field.modulus, Field.writeAddr] using row
  obtain ⟨t, ht, done⟩ := exec_setCmd_endsDone f v ready
  obtain ⟨valid, value⟩ := d2b_valid (f.mod_modulus_lt v)
  exact ⟨t, f.setByte v, ht, done.status, valid, value, rfl, done.trace⟩

/-! ### Addresses (R56, R57) -/

/-- On a mapped write address, which is even, adding one sets bit 0 (R56). -/
theorem readAddr_mapped {w : Byte} : isWriteAddr w.toNat = true → (w + 1).toNat = w.toNat + 1 ∧ w + 1 = w ||| 1#8 := by
  revert w
  decide

/-- A getter's one frame is a read at its field's read address (R101). -/
theorem eventsOf_getCmd (r : Byte) (f : Field) : eventsOf r f.getCmd = framesEvents [.read (f.writeAddr + 1) r] := by
  cases f <;> rfl

/-- Settles O30: adding one to a mapped write address sets bit 0, and that is the address of a getter's frame. -/
theorem readAddressIsWritePlusOne : Obligations.ReadAddressIsWritePlusOne := by
  refine ⟨fun w mapped => ?_, fun s f w ready row => ?_⟩
  · obtain ⟨sum, setsBit⟩ := readAddr_mapped mapped
    have bits (k : Nat) : (w + 1).getLsbD k = (w.getLsbD k || decide (k = 0)) := by
      rw [setsBit, BitVec.getLsbD_or, BitVec.getLsbD_one]
      simp
    refine ⟨sum, ?_, fun k hk => ?_⟩
    · simp only [bits, decide_true, Bool.or_true]
    · simp only [bits, hk, decide_false, Bool.or_false]
  · obtain rfl : w = f.writeAddr := by cases f <;> simpa [Field.writeAddr] using row
    obtain ⟨t, r, ht, trace⟩ := exec_trace f.getCmd s ready
    exact ⟨t, r, ht, eventsOf_getCmd r f ▸ trace⟩

/-- A RAM slot is read at its write address plus one (R56, R57). -/
theorem ramReadAddr_eq (i : Nat) : ramReadAddr i = ramWriteAddr i + 1 := by
  rw [ramReadAddr, Nat.add_right_comm]
  exact BitVec.ofNat_add _ 1

/-- The read address of a RAM slot, exactly (R57). -/
theorem ramReadAddr_toNat (i : Nat) : (ramReadAddr i).toNat = 0xC0 + 1 + 2 * (i % 31) := by
  rw [ramReadAddr_eq, (readAddr_mapped (ramWriteAddr_mapped i)).1, ramWriteAddr_toNat, Nat.add_right_comm]

/-- Settles O35: the slot is below 31, so both addresses are exact and in their ranges. -/
theorem ramSlotAddresses : Obligations.RamSlotAddresses := by
  intro s i v ready
  obtain ⟨t, _, ht, written⟩ := exec_trace (.wrram i v) s ready
  obtain ⟨u, r, hu, read⟩ := exec_trace (.rdram i) s ready
  have writeAt := ramWriteAddr_toNat i
  have readAt := ramReadAddr_toNat i
  exact ⟨_, _, t, u, r, writeAt, readAt, by omega, by omega, by omega, by omega, ht, written, hu, read⟩

end Sys2Proof.Machine
end

section
/-!
PROOFS. The traces of all commands, counted and cut into frames (spec/30_encoding.md R50, R64, R69, spec/20_memory.md R38): the statements
O37 and O39.
-/
namespace Sys2Proof.Machine

/-! ### Counts (R64) -/

/-- The counts of a trace: its events, reads, clock pulses and frames. -/
structure Tally (evs : List PinEvent) (events reads pulses frames : Nat) : Prop where
  events : evs.length = events
  reads : (evs.filter PinEvent.isRead).length = reads
  clkHigh : evs.count (.w .clk true) = pulses
  clkLow : evs.count (.w .clk false) = pulses
  ceHigh : evs.count (.w .ce true) = frames
  ceLow : evs.count (.w .ce false) = frames

theorem Tally.append {evs evs' : List PinEvent} {e e' r r' p p' f f' : Nat} (h : Tally evs e r p f) (h' : Tally evs' e' r' p' f') :
    Tally (evs ++ evs') (e + e') (r + r') (p + p') (f + f') := by
  constructor
  case events => rw [List.length_append, h.events, h'.events]
  case reads => rw [List.filter_append, List.length_append, h.reads, h'.reads]
  case clkHigh => rw [List.count_append, h.clkHigh, h'.clkHigh]
  case clkLow => rw [List.count_append, h.clkLow, h'.clkLow]
  case ceHigh => rw [List.count_append, h.ceHigh, h'.ceHigh]
  case ceLow => rw [List.count_append, h.ceLow, h'.ceLow]

theorem txEvents_tally (b : Byte) : Tally (txEvents b) 24 0 8 0 := ⟨rfl, rfl, rfl, rfl, rfl, rfl⟩

theorem rxEvents_tally (r : Byte) : Tally (rxEvents r) 24 8 8 0 := ⟨rfl, rfl, rfl, rfl, rfl, rfl⟩

theorem Frame.events_tally (f : Frame) : Tally f.events 50 (if f.isRead then 8 else 0) 16 1 := by
  cases f <;> exact ⟨rfl, rfl, rfl, rfl, rfl, rfl⟩

/-- Frames one after another: their counts are sums. -/
theorem framesEvents_tally (fs : List Frame) :
    Tally (framesEvents fs) (50 * fs.length) (8 * fs.countP Frame.isRead) (16 * fs.length) fs.length := by
  induction fs with
  | nil => exact ⟨rfl, rfl, rfl, rfl, rfl, rfl⟩
  | cons f fs ih =>
    have both : Tally (framesEvents (f :: fs)) _ _ _ _ := f.events_tally.append ih
    convert both using 1
    · simp only [List.length_cons]; omega
    · rw [List.countP_cons]; split <;> omega
    · simp only [List.length_cons]; omega
    · simp only [List.length_cons]; omega

/-- The table of R64, from the frames of a command; the byte transport has none. -/
theorem eventsOf_tally (r : Byte) (i : Instr) :
    Tally (eventsOf r i) (eventCount i) (readCount i) (pulseCount i) (frameCount i) := by
  cases i
  case wrbyte v => exact txEvents_tally _
  case rdbyte => exact rxEvents_tally r
  all_goals exact framesEvents_tally (framesOf r _)

/-- Settles O37, by the counts of a command's events. -/
theorem traceLengthsAreFixedByTheOpcode : Obligations.TraceLengthsAreFixedByTheOpcode := by
  intro s i ready
  obtain ⟨t, r, ht, trace⟩ := exec_trace i s ready
  obtain ⟨events, reads, clkHigh, clkLow, ceHigh, ceLow⟩ := eventsOf_tally r i
  exact ⟨t, eventsOf r i, ht, trace, events, reads, clkHigh, clkLow, ceHigh, ceLow⟩

/-! ### The frames of the field commands (R38, R69, R94) -/

/-- A frame that a field command may send: at one of the 77 addresses, a read at an odd and a write at an even one, and nothing but 0 into
the write-protect register. -/
structure FieldFrame (f : Frame) : Prop where
  mapped : f.addr.toNat ∈ fieldAddresses
  direction : readDirection f.addr = f.isRead
  protect : ∀ v, f = .write 0x8E v → v = 0

/-- The registers that the field commands read and write: the calendar's and the RAM's, all but write-protect and control. -/
def isFieldRegister (a : Byte) : Bool := isWriteAddr a.toNat && a != addrWp && a != addrControl

/-- The write and the read address of such a register are among the 77. -/
theorem fieldRegister_addresses {a : Byte} : isFieldRegister a = true →
    (a.toNat ∈ fieldAddresses ∧ readDirection a = false ∧ a ≠ 0x8E) ∧
      ((a + 1).toNat ∈ fieldAddresses ∧ readDirection (a + 1) = true) := by
  revert a
  decide

theorem Field.writeAddr_fieldRegister (f : Field) : isFieldRegister f.writeAddr = true := by cases f <;> rfl

/-- Every RAM slot is one: its address lies above those two. -/
theorem ramWriteAddr_fieldRegister (i : Nat) : isFieldRegister (ramWriteAddr i) = true := by
  have above : ∀ b : Byte, b.toNat < 0xC0 → ramWriteAddr i ≠ b := by
    rintro b hb rfl
    rw [ramWriteAddr_toNat] at hb
    omega
  simp [isFieldRegister, ramWriteAddr_mapped, above addrWp (by decide), above addrControl (by decide)]

theorem fieldFrame_read {a : Byte} (h : isFieldRegister a = true) (r : Byte) : ∀ f ∈ [Frame.read (a + 1) r], FieldFrame f := by
  obtain ⟨-, mapped, odd⟩ := fieldRegister_addresses h
  exact List.forall_mem_singleton.mpr ⟨mapped, odd, nofun⟩

theorem fieldFrame_protected {a : Byte} (h : isFieldRegister a = true) (v : Byte) : ∀ f ∈ protectedFrames a v, FieldFrame f := by
  have disable : FieldFrame (.write 0x8E 0x00) := ⟨by decide, rfl, fun v hv => by cases hv; rfl⟩
  obtain ⟨⟨mapped, even, notWp⟩, -⟩ := fieldRegister_addresses h
  have data : FieldFrame (.write a v) := ⟨mapped, even, fun v' hv => absurd (Frame.write.inj hv).1 notWp⟩
  simp only [protectedFrames, List.forall_mem_cons]
  exact ⟨disable, data, disable, nofun⟩

/-- The frames of every field command. -/
theorem framesOf_fieldFrame (r : Byte) {i : Instr} (h : i.opcode.internal = false) : ∀ f ∈ framesOf r i, FieldFrame f := by
  have get (f : Field) : ∀ fr ∈ [Frame.read (f.writeAddr + 1) r], FieldFrame fr := fieldFrame_read f.writeAddr_fieldRegister r
  have set (f : Field) (b : Byte) : ∀ fr ∈ protectedFrames f.writeAddr b, FieldFrame fr :=
    fieldFrame_protected f.writeAddr_fieldRegister b
  cases i
  case d2b | b2d | wrbyte | rdbyte | rdreg | wrreg | pwrreg => cases h
  case setyear => exact set .year _
  case setmonth => exact set .month _
  case setday => exact set .day _
  case sethour => exact set .hour _
  case setmin => exact set .minute _
  case setsec => exact set .second _
  case setwday => exact set .weekday _
  case getyear => exact get .year
  case getmonth => exact get .month
  case getday => exact get .day
  case gethour => exact get .hour
  case getmin => exact get .minute
  case getsec => exact get .second
  case getwday => exact get .weekday
  case start | pause => exact List.forall_mem_append.mpr ⟨get .second, set .second _⟩
  case rdram k =>
    rw [framesOf, ramReadAddr_eq]
    exact fieldFrame_read (ramWriteAddr_fieldRegister k) r
  case wrram k v => exact fieldFrame_protected (ramWriteAddr_fieldRegister k) _
  case setdatetime =>
    simp only [framesOf, dateTimeFrames, List.forall_mem_append]
    exact ⟨⟨⟨⟨⟨⟨set .year _, set .month _⟩, set .day _⟩, set .weekday _⟩, set .hour _⟩, set .minute _⟩, set .second _⟩

/-- Settles O39: outside the byte transport a command's events are those of its frames. -/
theorem commandsAreSequencesOfFrames : Obligations.CommandsAreSequencesOfFrames := by
  intro s i ready above
  obtain ⟨t, r, ht, trace⟩ := exec_trace i s ready
  have frames : eventsOf r i = framesEvents (framesOf r i) := by
    cases i
    case wrbyte | rdbyte => simp [Instr.opcode] at above
    all_goals rfl
  have length : (framesOf r i).length = frameCount i := by cases i <;> rfl
  refine ⟨t, framesOf r i, ht, frames ▸ trace, length, fun field f hf => ?_⟩
  obtain ⟨mapped, direction, protect⟩ := framesOf_fieldFrame r field f hf
  exact ⟨mapped, direction, protect⟩

end Sys2Proof.Machine
end

section
/-!
PROOFS. The BCD codec (spec/40_bcd_codec.md R70 to R72, R74): the statements O15, O16 and O17.
-/
namespace Sys2Proof.Machine

/-! ### The formulas, as arithmetic on the byte's value (R70, R71) -/

theorem highNibble_toNat (b : Byte) : (b >>> 4).toNat = b.toNat / 16 := by
  rw [BitVec.toNat_ushiftRight, Nat.shiftRight_eq_div_pow]

theorem lowNibble_toNat (b : Byte) : (b &&& 0x0F).toNat = b.toNat % 16 := by
  rw [BitVec.toNat_and]
  exact Nat.and_two_pow_sub_one_eq_mod b.toNat 4

theorem b2d_eq (b : Byte) : b2d b = b.toNat / 16 * 10 + b.toNat % 16 := by
  rw [b2d, highNibble_toNat, lowNibble_toNat]

theorem trunc8_toNat (v : Nat) : (trunc8 v).toNat = v % 256 := BitVec.toNat_ofNat v 8

/-- The largest value is that of 0xFF (R71). -/
theorem b2d_le (b : Byte) : b2d b ≤ 165 := by
  have byte : b.toNat < 256 := b.isLt
  rw [b2d_eq]
  omega

/-- What B2D puts into `RESULT` is exact. -/
theorem fromBcd_toNat (b : Byte) : (BitVec.ofNat 16 (b2d b)).toNat = b2d b := by
  have fits := b2d_le b
  rw [BitVec.toNat_ofNat, Nat.mod_eq_of_lt (by omega)]

/-- What D2B puts into `RESULT` is its formula, truncated to a byte (U1). -/
theorem toBcd_toNat (v : Nat) : (zext16 (d2b v)).toNat = (v / 10 * 16 + v % 10) % 256 :=
  BitVec.toNat_setWidth_of_le (by decide)

/-! ### The two commands, which have no pin events (R74) -/

theorem exec_d2b (v : Nat) {s : State} (idle : s.active = none) :
    exec (.d2b v) s = .next (finish (.toBcd v) (s.accept (.d2b v))) := exec_idle _ s idle

theorem exec_b2d (v : Nat) {s : State} (idle : s.active = none) :
    exec (.b2d v) s = .next (finish (.fromBcd (trunc8 v)) (s.accept (.b2d v))) := exec_idle _ s idle

/-- An operand in D2B's domain, or any where it wraps, is encoded. -/
theorem finish_toBcd_done {v : Nat} {s : State} (h : v ≤ 99 ∨ s.cfg.d2bWraps = true) :
    finish (.toBcd v) s = s.endWith .done (zext16 (d2b v)) := if_pos h

theorem finish_toBcd_refused {v : Nat} {s : State} (above : 99 < v) (refuses : s.cfg.d2bWraps = false) :
    finish (.toBcd v) s = s.endWith .refused 0 :=
  if_neg (by simp [refuses, above])

/-- A command that is accepted and only ends changes no pin and no working register. -/
theorem PortOnly.pinsKept {i : Instr} {s t : State} (h : PortOnly (s.accept i) t) : PinsKept s t :=
  ⟨h.clk, h.ce, h.dat, h.oe, h.shreg, h.bitcnt, h.latch⟩

theorem PortOnly.envKept {i : Instr} {s t : State} (h : PortOnly (s.accept i) t) : EnvKept s t :=
  ⟨h.peer, h.fifo, h.answers, h.draws⟩

/-- Settles O15, by the one way D2B ends in each of the three cases; all of them change the port alone. -/
theorem d2bReturnsTheBcdByte : Obligations.D2bReturnsTheBcdByte := by
  intro s v idle
  have ended := finish_portOnly (.toBcd v) (s.accept (.d2b v))
  refine ⟨_, exec_d2b v idle, ended.pinsKept, ended.envKept, ended.log, ended.cfg, ended.cmds, ended.ioFails, ended.idle,
    fun inDomain => ?_, fun above refuses => ?_, fun above wraps => ?_⟩
  · rw [finish_toBcd_done (.inl inDomain)]
    have exact : v / 10 * 16 + v % 10 < 256 := by omega
    exact ⟨rfl, (toBcd_toNat v).trans (Nat.mod_eq_of_lt exact)⟩
  · rw [finish_toBcd_refused (s := s.accept _) above refuses]
    exact ⟨rfl, rfl⟩
  · rw [finish_toBcd_done (s := s.accept _) (.inr wraps)]
    exact ⟨rfl, toBcd_toNat v⟩

/-- Settles O16: B2D ends done with the value of the operand's low byte, and `op` alone decodes to it. -/
theorem b2dReturnsTheValue : Obligations.B2dReturnsTheValue := by
  refine ⟨fun s v idle => ?_, fun d op => decode_of_code (o := .b2d) op false, by decide⟩
  have ended := finish_portOnly (.fromBcd (trunc8 v)) (s.accept (.b2d v))
  have value : (BitVec.ofNat 16 (b2d (trunc8 v))).toNat = b2d (trunc8 v) := fromBcd_toNat _
  refine ⟨_, exec_b2d v idle, ended.pinsKept, ended.envKept, endWith_endsDone (ops := []) _ rfl, ?_, ?_⟩
  · rw [← trunc8_toNat]
    exact value.trans (b2d_eq _)
  · exact value.trans_le (b2d_le _)

/-- Settles O17: each command returns what O15 and O16 say, and the two formulas cancel on digits of at most 9. -/
theorem codecIsItsOwnInverse : Obligations.CodecIsItsOwnInverse := by
  refine ⟨fun s t d idle inDomain ht => ?_, fun s t b idle tens units ht => ?_, by decide, by decide, by decide⟩
  · obtain ⟨t', ht', -, -, -, -, -, -, idle', encoded, -⟩ := d2bReturnsTheBcdByte s d idle
    obtain rfl : t' = t := by simpa [ht'] using ht
    obtain ⟨-, byte⟩ := encoded inDomain
    obtain ⟨u, hu, -, -, done, value, -⟩ := b2dReturnsTheValue.1 t' t'.result.toNat idle'
    exact ⟨u, hu, done.status, by omega⟩
  · obtain ⟨t', ht', -, -, done', value, -⟩ := b2dReturnsTheValue.1 s b.toNat idle
    obtain rfl : t' = t := by simpa [ht'] using ht
    rw [highNibble_toNat] at tens
    rw [lowNibble_toNat] at units
    have byte : b.toNat < 256 := b.isLt
    have inDomain : t'.result.toNat ≤ 99 := by omega
    obtain ⟨u, hu, -, -, -, -, -, -, -, encoded, -⟩ := d2bReturnsTheBcdByte t' t'.result.toNat done'.idle
    obtain ⟨done, digits⟩ := encoded inDomain
    exact ⟨u, hu, done, by omega⟩

end Sys2Proof.Machine
end

section
/-!
PROOFS. The two commands of the byte transport (spec/41_byte_transport.md R80 to R83): the statements O18 and O19.
-/
namespace Sys2Proof.Machine

/-- Whatever a command's pin operations are, they reach the fixture on the line alone. -/
theorem endWith_otherFixturesKept {i : Instr} {s : State} (ops : List PinOp) (st : Status) (r : Half) :
    OtherFixturesKept s ((performAll ops (s.accept i)).endWith st r) where
  peer := performAll_peer_kept ops (s.accept i)
  fifo := performAll_fifo_kept ops (s.accept i)

/-- A command that does not raise chip-select leaves a peer that is in no frame as it was (R83). -/
theorem endWith_peer_of_noFrame {i : Instr} {s : State} {ops : List PinOp} (st : Status) (r : Half) (hops : .ce true ∉ ops)
    (h : s.peer.inframe = false) : ((performAll ops (s.accept i)).endWith st r).peer = s.peer :=
  performAll_peer_of_noFrame (s := s.accept i) (fun _ _ => h) hops

/-- Sending a byte leaves chip-select alone (R82). -/
theorem ceHigh_notMem_sendByte (src : ByteSrc) : .ce true ∉ sendByte src := by simp [sendByte, sendBit]

/-- So does receiving one. -/
theorem ceHigh_notMem_receiveByte : .ce true ∉ receiveByte := by simp [receiveByte, receiveBit]

/-- Settles O18: the one byte that is sent is all the command does before it ends done. -/
theorem wrbyteSendsItsByte : Obligations.WrbyteSendsItsByte := by
  intro s v ready
  have sent : Sent (trunc8 v) _ _ := sendByte_spec (.lit (trunc8 v)) (s.accept (.wrbyte v))
  have seq : (performAll (sendByte (.lit (trunc8 v))) (s.accept (.wrbyte v))).seq = 24 := by simp
  exact ⟨_, exec_reliable _ s ready.idle ready.reliable, endWith_endsDone 0 sent.log, sent.clk, sent.ce, sent.dat, sent.oe,
    sent.shreg, sent.bitcnt, sent.latch, seq, ⟨sent.answers, sent.draws⟩, endWith_otherFixturesKept _ _ _,
    endWith_peer_of_noFrame _ _ (ceHigh_notMem_sendByte _)⟩

/-- Settles O19: the one byte that is received stands in `SHREG`, from which the command takes its result. -/
theorem rdbyteReturnsTheByteRead : Obligations.RdbyteReturnsTheByteRead := by
  intro s ready
  have received := receiveByte_spec (s.accept .rdbyte)
  have seq : (performAll receiveByte (s.accept .rdbyte)).seq = 24 := by simp
  have ended := endWith_endsDone (zext16 (receivedByte (s.accept .rdbyte))) received.log
  have run : exec .rdbyte s =
      .next ((performAll receiveByte (s.accept .rdbyte)).endWith .done (zext16 (receivedByte (s.accept .rdbyte)))) := by
    rw [exec_reliable _ s ready.idle ready.reliable, ← received.shreg]
    rfl
  exact ⟨_, _, run, ended, received.clk, received.ce, received.dat, received.oe, received.shreg, received.bitcnt, received.latch,
    seq, endWith_otherFixturesKept _ _ _, endWith_peer_of_noFrame _ _ ceHigh_notMem_receiveByte⟩

end Sys2Proof.Machine
end

section
/-!
PROOFS. The three commands of the register framing layer (spec/42_register_transport.md R90 to R93): the statements O22, O25 and O26; the
read frames that nothing answers (R14, U3, U4, U6): O23; and the protected write at the reference peer (R92, R110, R123): O45.
-/
namespace Sys2Proof.Machine

/-! ### Commands that write frames (R91, R92) -/

/-- A command whose pin operations are write frames, and which only confirms them. -/
theorem exec_writeFrames {i : Instr} {s : State} {fs : List Frame} {v : Byte} (ready : Ready s)
    (ending : (planOf i).ending = .confirm) (wrote : WroteFrames fs v (s.accept i) (performAll (planOf i).ops (s.accept i))) :
    ∃ t, exec i s = .next t ∧ EndsDone s t (framesEvents fs) 0 ∧ AfterWrite v t ∧ t.latch = s.latch ∧ t.seq = eventCount i ∧
      NoDraw s t ∧ OtherFixturesKept s t := by
  have run : exec i s = .next ((performAll (planOf i).ops (s.accept i)).endWith .done 0) := by
    rw [exec_reliable i s ready.idle ready.reliable, ending]
    rfl
  have seq : (performAll (planOf i).ops (s.accept i)).seq = eventCount i := by simp [planOf_length]
  exact ⟨_, run, endWith_endsDone 0 wrote.log, ⟨wrote.clk, wrote.ce, wrote.dat, wrote.oe, wrote.shreg, wrote.bitcnt⟩, wrote.latch,
    seq, ⟨wrote.answers, wrote.draws⟩, endWith_otherFixturesKept _ _ _⟩

/-- Settles O25: the command is one write frame. -/
theorem wrregIsOneWriteFrame : Obligations.WrregIsOneWriteFrame := fun _ a v ready =>
  exec_writeFrames (i := .wrreg a v) ready rfl (writeOps_spec a (.lit (trunc8 v)) _)

/-- Settles O26: the command is the protected write, whose last frame sends 0. -/
theorem pwrregIsTheProtectedWrite : Obligations.PwrregIsTheProtectedWrite := fun _ a v ready =>
  exec_writeFrames (i := .pwrreg a v) ready rfl (protectedOps_spec a (.lit (trunc8 v)) _)

/-! ### Commands of one read frame (R90) -/

/-- A command whose pin operations are one read frame, and whose result is made of the byte read. -/
theorem exec_readFrame {i : Instr} {a : Byte} {s : State} {result : Byte → Half} (ready : Ready s)
    (plan : (planOf i).ops = readOps a) (ending : ∀ u, finish (planOf i).ending u = u.endWith .done (result u.shreg)) :
    ∃ t r, exec i s = .next t ∧ EndsDone s t (framesEvents [.read a r]) (result r) ∧ AfterRead a r t ∧ t.latch = s.latch ∧
      t.seq = 50 ∧ OtherFixturesKept s t := by
  obtain ⟨frame, latch⟩ := readOps_spec a (s.accept i)
  have run : exec i s = .next ((performAll (readOps a) (s.accept i)).endWith .done (result (frameByte a (s.accept i)))) := by
    rw [exec_reliable i s ready.idle ready.reliable, ending, plan, frame.shreg]
  have seq : (performAll (readOps a) (s.accept i)).seq = 50 := by simp
  exact ⟨_, _, run, endWith_endsDone _ frame.log, ⟨frame.clk, frame.ce, frame.dat, frame.oe, frame.shreg, frame.bitcnt⟩, latch,
    seq, endWith_otherFixturesKept _ _ _⟩

/-- Settles O22: the command is one read frame, and its result the byte of that frame. -/
theorem rdregIsOneReadFrame : Obligations.RdregIsOneReadFrame := fun _ a ready =>
  exec_readFrame (i := .rdreg a) ready rfl fun _ => rfl

/-! ### Read frames of draws (R14) -/

/-- A read frame of which nothing answers the eight reads: its byte is the next eight draws. -/
theorem readOps_draws {a : Byte} {s : State} (draws : AllDraws (beforeSamples a s)) :
    frameByte a s = byteOf s.draw ∧ EightDraws s (performAll (readOps a) s) := by
  have sent : Sent a ((PinOp.ce true).perform s) (beforeSamples a s) := sendByte_spec (.lit a) _
  have run : performAll (readOps a) s = (PinOp.ce false).perform (performAll receiveByte (beforeSamples a s)) := by
    simp [readOps, beforeSamples]
  obtain ⟨answers, count⟩ := receiveByte_eightDraws draws
  rw [sent.answers] at answers count
  rw [sent.draws] at count
  have level : (beforeSamples a s).draw = s.draw := draw_of_inputs sent.answers sent.draws
  exact ⟨level ▸ receivedByte_draws _ draws, run ▸ ⟨answers, count⟩⟩

/-- In the general model, and at a peer that has refused a frame, nothing answers the reads of a frame. -/
theorem beforeSamples_allDraws (a : Byte) {s : State}
    (h : s.cfg.line = .general ∨ (s.cfg.line = .referencePeer ∧ s.peer.outside = true)) : AllDraws (beforeSamples a s) := by
  have cfg : (beforeSamples a s).cfg = s.cfg := by simp [beforeSamples]
  obtain general | ⟨line, outside⟩ := h
  · exact allDraws_general _ (by rw [cfg, general])
  · have still : (beforeSamples a s).peer = s.peer := performAll_refused (.ce true :: sendByte (.lit a)) s line outside
    exact allDraws_of_noFrame (by rw [cfg, line]) (.inr (by rw [still, outside]))

/-- Settles O23: RDREG, RDRAM and the getters are each one read frame, and nothing answers its reads. -/
theorem readFramesOfDraws : Obligations.ReadFramesOfDraws := by
  intro s i a ready unanswered hi
  have plan : (planOf i).ops = readOps a := by
    obtain rfl | ⟨k, rfl, rfl⟩ | ⟨f, rfl, rfl⟩ := hi
    · rfl
    · rfl
    · rw [planOf_getCmd]; rfl
  have frame := (readOps_spec a (s.accept i)).1
  obtain ⟨byte, answers, count⟩ := readOps_draws (beforeSamples_allDraws a (s := s.accept i) unanswered)
  have ended := finish_portOnly (planOf i).ending (performAll (readOps a) (s.accept i))
  refine ⟨_, plan ▸ exec_reliable i s ready.idle ready.reliable, ?_, ended.answers.trans answers, ended.draws.trans count⟩
  have drawn : frameByte a (s.accept i) = byteOf s.draw := byte
  simp [State.trace, frame.log, drawn]

/-! ### The protected write at the reference peer (R92) -/

/-- Settles O45: PWRREG, the setters and WRRAM are each the protected write at a mapped write address. -/
theorem protectedWritesAreTaken : Obligations.ProtectedWritesAreTaken := by
  intro s i a v hs canonical hi
  obtain ⟨plan, mapped⟩ : (planOf i).ops = protectedOps a (.lit v) ∧ isWriteAddr a.toNat = true := by
    obtain ⟨n, rfl, rfl, mapped⟩ | ⟨f, n, rfl, rfl, rfl⟩ | ⟨k, n, rfl, rfl, rfl⟩ := hi
    · exact ⟨rfl, mapped⟩
    · exact ⟨by rw [planOf_setCmd]; rfl, f.writeAddr_mapped⟩
    · exact ⟨rfl, ramWriteAddr_mapped k⟩
  obtain ⟨settled, registers⟩ := protectedOps_registers a (.lit v) _ (hs.accept_settled canonical i) mapped
  have ended := finish_portOnly (planOf i).ending (performAll (protectedOps a (.lit v)) (s.accept i))
  exact ⟨_, plan ▸ exec_reliable i s hs.idle hs.reliable, settled.finish_onStaticPeer (by simpa using hs.reliable) _,
    fun x => (congrArg (·.mem.read x) ended.peer).trans (registers x)⟩

end Sys2Proof.Machine
end

section
/-!
PROOFS. The field commands (spec/43_field_commands.md R100 to R108, R110 to R117, R120 to R124; spec/90_conflicts.md C1): the statements O27,
O29, O31, O32, O33, O34 and O36.
-/
namespace Sys2Proof.Machine

/-! ### The commands that only write (R110 to R117, R123, R124) -/

/-- A setter is one protected write (R64). -/
theorem eventCount_setCmd (f : Field) (v : Nat) : eventCount (f.setCmd v) = 150 := by cases f <;> rfl

/-- Settles O27: a setter is the protected write of its field's byte. -/
theorem settersWriteTheWrappedField : Obligations.SettersWriteTheWrappedField := by
  intro s f v ready
  have wrote : WroteFrames (protectedFrames f.writeAddr (f.setByte v)) 0 (s.accept (f.setCmd v))
      (performAll (planOf (f.setCmd v)).ops (s.accept (f.setCmd v))) := by
    rw [planOf_setCmd]
    exact protectedOps_spec f.writeAddr (.lit (f.setByte v)) _
  rw [← eventCount_setCmd f v]
  exact exec_writeFrames ready (by rw [planOf_setCmd]; rfl) wrote

/-- Settles O34: WRRAM is the protected write at its slot. -/
theorem wrramWritesItsSlot : Obligations.WrramWritesItsSlot := fun _ i v ready =>
  exec_writeFrames (i := .wrram i v) ready rfl (protectedOps_spec (ramWriteAddr i) (.lit (trunc8 v)) _)

/-- Settles O36: SETDATETIME is seven protected writes one after another. -/
theorem setdatetimeWritesSevenFields : Obligations.SetdatetimeWritesSevenFields := fun _ y mo d w h mi sec ready =>
  exec_writeFrames (i := .setdatetime y mo d w h mi sec) ready rfl (dateTimeOps_spec y mo d w h mi sec _)

/-! ### The commands that only read (R101 to R108, R122) -/

/-- Settles O33: RDRAM is one read frame at its slot, and its result the byte of that frame. -/
theorem rdramReadsItsSlot : Obligations.RdramReadsItsSlot := fun _ i ready =>
  exec_readFrame (i := .rdram i) (a := ramReadAddr i) ready rfl fun _ => rfl

/-- A getter is one read frame, and its result the decoded byte of that frame (R101). -/
theorem exec_getCmd (f : Field) {s : State} (ready : Ready s) :
    ∃ t r, exec f.getCmd s = .next t ∧
      EndsDone s t (framesEvents [.read (f.writeAddr + 1) r]) (BitVec.ofNat 16 (f.getValue r)) ∧
      AfterRead (f.writeAddr + 1) r t ∧ t.latch = s.latch ∧ t.seq = 50 ∧ OtherFixturesKept s t :=
  exec_readFrame (result := fun r => BitVec.ofNat 16 (f.getValue r)) ready (by rw [planOf_getCmd]; rfl)
    (by rw [planOf_getCmd]; exact fun _ => rfl)

/-- The post-processing of the seven getters in one formula (R100). -/
theorem Field.post_eq (f : Field) (d : Nat) :
    f.post d = if f = .year then d + 2000 else if f = .hour then d % 24 else if f = .minute ∨ f = .second then d % 60 else d := by
  cases f <;> rfl

/-- A field's read address is odd (R56). -/
theorem Field.readDirection_readAddr (f : Field) : readDirection (f.writeAddr + 1) = true := by cases f <;> rfl

/-- Settles O29: a getter is one read frame, whose byte it decodes and post-processes. -/
theorem gettersReturnTheDecodedField : Obligations.GettersReturnTheDecodedField := by
  intro s f ready
  obtain ⟨t, r, ht, done, kept⟩ := exec_getCmd f ready
  rw [Field.getValue, b2d_eq, Field.post_eq] at done
  have length : (framesEvents [.read (f.writeAddr + 1) r]).length = 50 := by
    rw [framesEvents_singleton, (Frame.events_bounds _).1]
  exact ⟨t, r, _, ht, rfl, done, length, f.readDirection_readAddr, kept⟩

/-- What a getter puts into `RESULT` is exact. -/
theorem Field.getValue_toNat (f : Field) (r : Byte) : (BitVec.ofNat 16 (f.getValue r)).toNat = f.getValue r := by
  have decoded := b2d_le r
  have fits : f.getValue r < 2 ^ 16 := by cases f <;> simp only [Field.getValue, Field.post] <;> omega
  rw [BitVec.toNat_ofNat, Nat.mod_eq_of_lt fits]

/-- A getter's result is the value of some byte. -/
theorem exec_getCmd_value (f : Field) {s : State} (ready : Ready s) :
    ∃ t r, exec f.getCmd s = .next t ∧ t.result.toNat = f.post (b2d r) := by
  obtain ⟨t, r, ht, done, -⟩ := exec_getCmd f ready
  exact ⟨t, r, ht, by rw [done.result, f.getValue_toNat, Field.getValue]⟩

/-- An upper bound of a field's values, whatever byte is read, is one of its getter's results. -/
theorem exec_getCmd_le (f : Field) {s : State} {bound : Nat} (ready : Ready s) (le : ∀ r, f.post (b2d r) ≤ bound) :
    ∃ t, exec f.getCmd s = .next t ∧ t.result.toNat ≤ bound := by
  obtain ⟨t, r, ht, value⟩ := exec_getCmd_value f ready
  exact ⟨t, ht, value ▸ le r⟩

/-- Settles O31: a decoded byte is at most 165, and the post-processing brings hour, minute and second into their ranges. -/
theorem getterResultsAreInRange : Obligations.GetterResultsAreInRange := by
  intro s ready
  have reduced (r : Byte) {m : Nat} (positive : 0 < m) : b2d r % m ≤ m - 1 := Nat.le_sub_one_of_lt (Nat.mod_lt _ positive)
  refine ⟨?_, exec_getCmd_le .month ready b2d_le, exec_getCmd_le .day ready b2d_le,
    exec_getCmd_le .hour ready fun r => reduced r (by decide), exec_getCmd_le .minute ready fun r => reduced r (by decide),
    exec_getCmd_le .second ready fun r => reduced r (by decide), exec_getCmd_le .weekday ready b2d_le⟩
  obtain ⟨t, r, ht, value⟩ := exec_getCmd_value .year ready
  exact ⟨t, ht, value ▸ Nat.le_add_left _ _, value ▸ Nat.add_le_add_right (b2d_le r) 2000⟩

/-! ### START and PAUSE (R120, R121) -/

/-- A command that reads the seconds byte and writes it back, changed, through the protected write. -/
theorem exec_readModifyWrite {i : Instr} {src : ByteSrc} {change : Byte → Byte} {s : State} (ready : Ready s)
    (ops : (planOf i).ops = readLatchOps 0x81 ++ protectedOps 0x80 src) (ending : (planOf i).ending = .confirm)
    (value : ∀ u : State, src.value u = change u.latch) :
    ∃ t r, exec i s = .next t ∧ EndsDone s t (framesEvents (.read 0x81 r :: protectedFrames 0x80 (change r))) 0 ∧
      AfterWrite 0 t ∧ t.latch = r ∧ t.seq = 200 ∧ OtherFixturesKept s t := by
  have latch := (readLatchOps_spec 0x81 (s.accept i)).2
  have wrote := protectedOps_spec 0x80 src (performAll (readLatchOps 0x81) (s.accept i))
  have log := readModifyWrite_log src change value (s.accept i)
  have seq : (performAll (planOf i).ops (s.accept i)).seq = 200 := by simp [ops]
  rw [← performAll_append, ← ops] at wrote
  rw [← ops] at log
  have run : exec i s = .next ((performAll (planOf i).ops (s.accept i)).endWith .done 0) := by
    rw [exec_reliable i s ready.idle ready.reliable, ending]
    rfl
  exact ⟨_, _, run, endWith_endsDone 0 log, ⟨wrote.clk, wrote.ce, wrote.dat, wrote.oe, wrote.shreg, wrote.bitcnt⟩,
    wrote.latch.trans latch, seq, endWith_otherFixturesKept _ _ _⟩

/-- Settles O32: the two commands differ in what they do to bit 7 of the byte read. -/
theorem startAndPauseChangeTheHaltBitAlone : Obligations.StartAndPauseChangeTheHaltBitAlone := fun _ ready =>
  ⟨exec_readModifyWrite (src := .latchCleared) (change := clearHalt) ready rfl rfl fun _ => rfl,
    exec_readModifyWrite (src := .latchSet) (change := setHalt) ready rfl rfl fun _ => rfl⟩

end Sys2Proof.Machine
end

section
/-!
PROOFS. The field commands at the reference peer (spec/43_field_commands.md R107, R120, R121, R124, R125): the statements O46, O47, O48 and
O49.
-/
namespace Sys2Proof.Machine

/-- A command whose pin operations leave the peer settled ends on that peer. -/
theorem exec_settled {i : Instr} {s : State} (hs : OnStaticPeer s)
    (settled : Settled (performAll (planOf i).ops (s.accept i))) :
    ∃ t, exec i s = .next t ∧ OnStaticPeer t ∧ ∀ x, t.reg x = (performAll (planOf i).ops (s.accept i)).peer.mem.read x := by
  have ended := finish_portOnly (planOf i).ending (performAll (planOf i).ops (s.accept i))
  exact ⟨_, exec_reliable i s hs.idle hs.reliable, settled.finish_onStaticPeer (by simpa using hs.reliable) _,
    fun x => congrArg (·.mem.read x) ended.peer⟩

/-! ### START and PAUSE (R120, R121) -/

/-- The read frame of START and PAUSE keeps the register's byte in `LATCH` and changes no register (R46). -/
theorem readLatchOps_registers {w : Byte} {s : State} (h : Settled s) (mapped : isWriteAddr w.toNat = true) :
    Settled (performAll (readLatchOps (readAddr w)) s) ∧
      (performAll (readLatchOps (readAddr w)) s).latch = s.peer.mem.read w.toNat ∧
      (performAll (readLatchOps (readAddr w)) s).peer.mem = s.peer.mem := by
  obtain ⟨frame, latch⟩ := readLatchOps_spec (readAddr w) s
  obtain ⟨byte, -, peer, -, -⟩ := readOps_peer (readAddr w) s h.engaged h.clk h.ce (Memory.answer_readAddr _ mapped)
  rw [Peer.tick_nil h.static] at byte peer
  exact ⟨⟨by simpa using h.line, frame.clk, frame.ce, peer.outside.trans h.inside, peer.noFrame, peer.ticks.trans h.static,
    by rw [peer.mem]; exact h.wf⟩, latch.trans byte, peer.mem⟩

/-- Reading the seconds byte and writing it back, changed, changes that register and switches protection off. -/
theorem exec_readModifyWrite_registers {i : Instr} {src : ByteSrc} {change : Byte → Byte} {s : State} (hs : OnStaticPeer s)
    (canonical : MemInv s) (ops : (planOf i).ops = readLatchOps (readAddr addrSeconds) ++ protectedOps addrSeconds src)
    (value : ∀ u : State, src.value u = change u.latch) :
    ∃ t, exec i s = .next t ∧ OnStaticPeer t ∧
      ∀ x, t.reg x = if x = 0x8E then 0x00 else if x = 0x80 then change (s.reg 0x80) else s.reg x := by
  have mapped : isWriteAddr addrSeconds.toNat = true := rfl
  obtain ⟨read, latch, mem⟩ := readLatchOps_registers (hs.accept_settled canonical i) mapped
  obtain ⟨settled, registers⟩ := protectedOps_registers addrSeconds src _ read mapped
  rw [value, latch, mem] at registers
  rw [← performAll_append, ← ops] at settled registers
  obtain ⟨t, ht, onPeer, reg⟩ := exec_settled hs settled
  exact ⟨t, ht, onPeer, fun x => (reg x).trans (registers x)⟩

/-- Settles O46: the byte read is that of the seconds register, and it is written back with bit 7 changed. -/
theorem startAndPauseAtTheReferencePeer : Obligations.StartAndPauseAtTheReferencePeer := fun _ hs canonical =>
  ⟨exec_readModifyWrite_registers (src := .latchCleared) (change := clearHalt) hs canonical rfl fun _ => rfl,
    exec_readModifyWrite_registers (src := .latchSet) (change := setHalt) hs canonical rfl fun _ => rfl⟩

/-! ### SETDATETIME (R124) -/

/-- A setter's pin operations set their field's register and switch protection off (R110). -/
theorem setOps_registers (f : Field) (v : Nat) {s : State} (h : Settled s) :
    Settled (performAll (setOps f v) s) ∧ ∀ x, (performAll (setOps f v) s).peer.mem.read x =
      if x = 0x8E then 0 else if x = f.writeAddr.toNat then f.setByte v else s.peer.mem.read x :=
  protectedOps_registers f.writeAddr (.lit (f.setByte v)) s h f.writeAddr_mapped

/-- The seconds byte of a setter has bit 7 clear (R116). -/
theorem haltBit_setByte_second (v : Nat) : haltBit (Field.second.setByte v) = false := by
  have all : ∀ n < 60, haltBit (d2b n) = false := by decide
  exact all _ (Nat.mod_lt v (by decide))

/-- Settles O47: each of the seven setters sets its own register, and none of them that of another. -/
theorem setdatetimeAtTheReferencePeer : Obligations.SetdatetimeAtTheReferencePeer := by
  intro s y mo d w h mi sec hs canonical
  obtain ⟨settled1, year⟩ := setOps_registers .year y (hs.accept_settled canonical (.setdatetime y mo d w h mi sec))
  obtain ⟨settled2, month⟩ := setOps_registers .month mo settled1
  obtain ⟨settled3, day⟩ := setOps_registers .day d settled2
  obtain ⟨settled4, weekday⟩ := setOps_registers .weekday w settled3
  obtain ⟨settled5, hour⟩ := setOps_registers .hour h settled4
  obtain ⟨settled6, minute⟩ := setOps_registers .minute mi settled5
  obtain ⟨settled7, second⟩ := setOps_registers .second sec settled6
  have ops : (planOf (.setdatetime y mo d w h mi sec)).ops = setOps .year y ++ setOps .month mo ++ setOps .day d ++
      setOps .weekday w ++ setOps .hour h ++ setOps .minute mi ++ setOps .second sec := rfl
  simp only [← performAll_append] at settled7 second minute hour weekday day month
  rw [← ops] at settled7 second
  obtain ⟨t, ht, onPeer, reg⟩ := exec_settled hs settled7
  refine ⟨t, ht, onPeer, ?_, fun x => ?_⟩
  · rw [reg, second 0x80]
    exact haltBit_setByte_second sec
  · rw [reg, second x]
    by_cases protection : x = 0x8E
    · rw [if_pos protection, if_pos protection]
    · rw [minute, hour, weekday, day, month, year]
      simp only [if_neg protection]
      rfl

/-! ### Reading back (R125) -/

/-- No field's register is the write-protect register (R32). -/
theorem Field.writeAddr_ne_protection (f : Field) : f.writeAddr.toNat ≠ 0x8E := by cases f <;> decide

/-- The post-processing of a value already wrapped by the field's modulus (R100). -/
theorem Field.post_mod_modulus (f : Field) (v : Nat) :
    f.post (v % f.modulus) = if f = .year then 2000 + v % 100 else v % f.modulus := by
  cases f <;> simp [Field.post, Field.modulus, Nat.add_comm]

/-- A getter after its setter. -/
theorem getCmd_after_setCmd {s t : State} (f : Field) (v : Nat) (hs : OnStaticPeer s) (canonical : MemInv s)
    (ht : exec (f.setCmd v) s = .next t) :
    ∃ u, exec f.getCmd t = .next u ∧ u.result.toNat = if f = .year then 2000 + v % 100 else v % f.modulus := by
  obtain ⟨t', ht', onPeer, reg⟩ := protectedWritesAreTaken s _ _ _ hs canonical (.inr (.inl ⟨f, v, rfl, rfl, rfl⟩))
  obtain rfl : t' = t := by simpa [ht'] using ht
  obtain ⟨u, hu, result, -⟩ := readsReturnTheRegister.2.2 t' f onPeer
  have stored : t'.reg f.writeAddr.toNat = d2b (v % f.modulus) := by
    rw [reg, if_neg f.writeAddr_ne_protection, if_pos rfl]
  have decoded : b2d (d2b (v % f.modulus)) = v % f.modulus := (d2b_valid (f.mod_modulus_lt v)).2
  have value := f.getValue_toNat (d2b (v % f.modulus))
  rw [Field.getValue, decoded] at value
  exact ⟨u, hu, by rw [result, stored, decoded, value, f.post_mod_modulus]⟩

/-- RDRAM after WRRAM of the same slot. -/
theorem rdram_after_wrram {s t : State} {i j : Nat} (v : Nat) (hs : OnStaticPeer s) (canonical : MemInv s)
    (slot : j % 31 = i % 31) (ht : exec (.wrram i v) s = .next t) :
    ∃ u, exec (.rdram j) t = .next u ∧ u.result = zext16 (trunc8 v) := by
  obtain ⟨t', ht', onPeer, reg⟩ := protectedWritesAreTaken s _ _ _ hs canonical (.inr (.inr ⟨i, v, rfl, rfl, rfl⟩))
  obtain rfl : t' = t := by simpa [ht'] using ht
  obtain ⟨u, hu, result, -⟩ := readsReturnTheRegister.2.1 t' j onPeer
  have address : (BitVec.ofNat 8 (0xC0 + 2 * (i % 31))).toNat = 0xC0 + 2 * (i % 31) := ramWriteAddr_toNat i
  have stored : t'.reg (0xC0 + 2 * (i % 31)) = trunc8 v := by
    rw [reg, address, if_neg (by omega), if_pos rfl]
  exact ⟨u, hu, by rw [result, slot, stored]⟩

/-- RDREG of the seconds after a command that has set them to `b`. -/
theorem rdreg_seconds_after {i : Instr} {s t : State} {b : Byte}
    (set : ∃ t, exec i s = .next t ∧ OnStaticPeer t ∧ ∀ x, t.reg x = if x = 0x8E then 0x00 else if x = 0x80 then b else s.reg x)
    (ht : exec i s = .next t) : ∃ u, exec (.rdreg 0x81) t = .next u ∧ u.result = zext16 b := by
  obtain ⟨t', ht', onPeer, reg⟩ := set
  obtain rfl : t' = t := by simpa [ht'] using ht
  obtain ⟨u, hu, result, -⟩ := readsReturnTheRegister.1 t' 0x80 onPeer rfl
  exact ⟨u, hu, result.trans (congrArg zext16 (reg 0x80))⟩

/-- Settles O48: O45 and O46 say what the registers hold after the writing command, and O43 that they are read. -/
theorem readBackReturnsWhatWasWritten : Obligations.ReadBackReturnsWhatWasWritten :=
  ⟨fun _ _ f v hs canonical => getCmd_after_setCmd f v hs canonical,
    fun _ _ _ _ v hs canonical => rdram_after_wrram v hs canonical,
    fun s _ hs canonical => rdreg_seconds_after (startAndPauseAtTheReferencePeer s hs canonical).2,
    fun s _ hs canonical => rdreg_seconds_after (startAndPauseAtTheReferencePeer s hs canonical).1⟩

/-! ### GETSEC and the halt bit (R107, R173) -/

/-- GETSEC on a static peer returns the decoded seconds register, reduced modulo 60. -/
theorem exec_getsec_onStaticPeer {s : State} (hs : OnStaticPeer s) :
    ∃ t, exec .getsec s = .next t ∧ t.result.toNat = b2d (s.reg 0x80) % 60 := by
  obtain ⟨t, ht, result, -⟩ := readsReturnTheRegister.2.2 s .second hs
  exact ⟨t, ht, by rw [result]; exact Field.second.getValue_toNat _⟩

/-- The halt bit adds eight tens to the seconds that B2D finds (R173). -/
theorem b2d_halted {n : Nat} (h : n < 60) : b2d (0x80 + d2b n) = n + 80 := by
  have all : ∀ n < 60, b2d (0x80 + d2b n) = n + 80 := by decide
  exact all n h

/-- Settles O49: the seconds decode to themselves, and with the halt bit to 80 more, of which 60 drop out. -/
theorem getsecDecodesTheHaltBit : Obligations.GetsecDecodesTheHaltBit := by
  intro s n hs seconds
  obtain ⟨t, ht, value⟩ := exec_getsec_onStaticPeer hs
  refine ⟨fun running => ⟨t, ht, ?_⟩, fun paused => ⟨t, ht, ?_⟩⟩
  · have digits : n < 100 := by omega
    rw [value, running, (d2b_valid digits).2, Nat.mod_eq_of_lt seconds]
  · rw [value, paused, b2d_halted seconds]
    omega

end Sys2Proof.Machine
end

section
/-!
PROOFS. What the opcode alone fixes of a command's trace (spec/49_control_and_system.md R131, spec/30_encoding.md R64): the statement O38.
-/
namespace Sys2Proof.Machine

/-- Settles O38: each run appends the events of its command for some byte read, and the shapes of those events depend neither on that byte
nor on the operands. -/
theorem eventShapesDependOnTheOpcodeAlone : Obligations.EventShapesDependOnTheOpcodeAlone := by
  intro s s' i i' ready ready' same
  obtain ⟨t, r, ht, trace⟩ := exec_trace i s ready
  obtain ⟨t', r', ht', trace'⟩ := exec_trace i' s' ready'
  exact ⟨t, t', eventsOf r i, eventsOf r' i', ht, ht', trace, trace', eventsOf_shape r r' i i' same⟩

end Sys2Proof.Machine
end

section
/-!
PROOFS. Every step comes to an idle engine (spec/60_exceptions.md R148, spec/10_state.md R17), and the failure of a pin operation
(spec/60_exceptions.md R142, R143, R147): the statements O9, O51 and O52.
-/
namespace Sys2Proof.Machine

/-- Settles O9, by what a step can do: a command, or what is left of one, comes to its end, and where there is none the engine stays idle. -/
theorem everyStepAnswersAnIdleEngine : Obligations.EveryStepAnswersAnIdleEngine := by
  intro s
  obtain ⟨t, ht, what⟩ := step_cases s
  refine ⟨t, ht, ?_⟩
  obtain ⟨i, -, rfl⟩ | ⟨idle, -, rfl⟩ | ⟨i, d, ds, -, -, -, rfl⟩ | ⟨r, d, ds, -, -, -, rfl⟩ := what
  · exact runPlan_idle _ _
  · exact idle
  · exact runPlan_idle _ _
  · rfl

/-! ### An engine that can fail, as one that cannot with verdicts to come -/

/-- The same engine, unable to fail. -/
def State.unfailing (s : State) : State := { s with cfg := { s.cfg with pinIoCanFail := false } }

/-- The parameters of an engine that can fail, from those of the one that cannot. -/
theorem unfailing_cfg_canFail {s : State} (canFail : s.cfg.pinIoCanFail = true) :
    { s.unfailing.cfg with pinIoCanFail := true } = s.cfg := by
  rw [← canFail]
  rfl

/-- An engine that can fail accepts a command as the one that cannot does, its verdicts aside. -/
theorem accept_eq_failing (i : Instr) {s : State} (canFail : s.cfg.pinIoCanFail = true) :
    s.accept i = (s.unfailing.accept i).failing s.ioFails := by
  simp only [State.failing, accept_cfg, unfailing_cfg_canFail canFail]
  rfl

/-- The engine that cannot fail carries every operation of the command out. -/
theorem exec_unfailing {i : Instr} {s : State} (idle : s.active = none) :
    exec i s.unfailing = .next (finish (planOf i).ending (performAll (planOf i).ops (s.unfailing.accept i))) :=
  exec_reliable i s.unfailing idle rfl

/-- Where none of its operations fails, a command comes to its end as on the engine that cannot fail. -/
theorem runPlan_noFailure {i : Instr} {s : State} {rest : List Bool} (canFail : s.cfg.pinIoCanFail = true)
    (verdicts : s.ioFails = List.replicate (eventCount i) false ++ rest) :
    runPlan (planOf i) (s.accept i) =
      (finish (planOf i).ending (performAll (planOf i).ops (s.unfailing.accept i))).failing rest := by
  rw [runPlan, accept_seq, List.drop_zero, accept_eq_failing i canFail, verdicts, ← planOf_length, runOps_success]
  exact finish_failing _ _ rest

/-- Settles O52: a command whose operations all succeed never looks at the verdicts but to use them up. -/
theorem noFailureIsNoDifference : Obligations.NoFailureIsNoDifference := by
  intro s i rest idle canFail verdicts
  refine ⟨_, exec_unfailing idle, ?_⟩
  have cfg : (finish (planOf i).ending (performAll (planOf i).ops (s.unfailing.accept i))).cfg = s.unfailing.cfg :=
    (finish_portOnly _ _).cfg.trans (performAll_cfg _ _)
  rw [exec_idle i s idle, runPlan_noFailure canFail verdicts, State.failing, cfg, unfailing_cfg_canFail canFail]

/-! ### io-error -/

/-- io-error takes the verdict of its cleanup, which drives chip-select low unless it fails too (R142). -/
theorem ioError_failing (s : State) (vs : List Bool) :
    ioError (s.failing vs) =
      ((if vs.head? = some true then s else s.pinWrite .ce false).failing vs.tail).endWith .ioError 0 := by
  obtain _ | ⟨_ | _, vs⟩ := vs <;> rfl

@[simp] theorem failing_log (s : State) (vs : List Bool) : (s.failing vs).log = s.log := rfl

/-- The events of io-error: those before it, and the cleanup unless that fails. -/
theorem ioError_failing_trace (s : State) (vs : List Bool) :
    (ioError (s.failing vs)).trace = s.trace ++ if vs.head? = some true then [] else [.w .ce false] := by
  rw [ioError_failing, State.trace, endWith_log, failing_log]
  split <;> simp [State.trace]

/-- After a cleanup that succeeds chip-select is low. -/
theorem ioError_failing_ceOut (s : State) {vs : List Bool} (h : vs.head? ≠ some true) :
    (ioError (s.failing vs)).ceOut = false := by
  rw [ioError_failing, if_neg h]
  rfl

/-- A run of pin operations appends one event for each. -/
theorem performAll_trace (ops : List PinOp) (s : State) :
    ∃ evs, (performAll ops s).trace = s.trace ++ evs ∧ evs.length = ops.length := by
  induction ops generalizing s with
  | nil => exact ⟨[], (List.append_nil _).symm, rfl⟩
  | cons op ops ih =>
    obtain ⟨e, he⟩ := perform_trace op s
    obtain ⟨evs, hevs, length⟩ := ih (op.perform s)
    exact ⟨e :: evs, by simp [hevs, he], by simp [length]⟩

/-- Where operation `k` of a command is the first to fail, those before it are performed, and io-error abandons the command. -/
theorem runPlan_ioError {i : Instr} {s : State} {k : Nat} {rest : List Bool} (canFail : s.cfg.pinIoCanFail = true)
    (verdicts : s.ioFails = List.replicate k false ++ true :: rest) (hk : k < eventCount i) :
    runPlan (planOf i) (s.accept i) =
      ioError ((performAll ((planOf i).ops.take k) (s.unfailing.accept i)).failing rest) := by
  rw [runPlan, accept_seq, List.drop_zero, accept_eq_failing i canFail, verdicts,
    runOps_failure _ _ k rest (by rwa [planOf_length])]

/-- Settles O51: the run of the engine that cannot fail is cut after its first `k` operations, which give the events before the failure. -/
theorem ioErrorKeepsAPrefixAndCleansUp : Obligations.IoErrorKeepsAPrefixAndCleansUp := by
  intro s i k rest idle canFail verdicts hk
  have failed := runPlan_ioError canFail verdicts hk
  obtain ⟨hcfg, hcmds, -⟩ := runPlan_kept (planOf i) (s.accept i)
  obtain ⟨evs, before, length⟩ := performAll_trace ((planOf i).ops.take k) (s.unfailing.accept i)
  obtain ⟨more, after, -⟩ :=
    performAll_trace ((planOf i).ops.drop k) (performAll ((planOf i).ops.take k) (s.unfailing.accept i))
  rw [← performAll_append, List.take_append_drop, before] at after
  rw [failed] at hcfg hcmds
  refine ⟨_, _, evs, more, (exec_idle i s idle).trans (congrArg _ failed), exec_unfailing idle, ?_, ?_, ?_,
    ioError_failing_ceOut _, rfl, rfl, rfl, hcfg, hcmds, ?_⟩
  · rw [State.trace, finish_log]
    exact after
  · rw [length, List.length_take, planOf_length]
    omega
  · rw [ioError_failing_trace, before]
    rfl
  · rw [ioError_failing]
    rfl

end Sys2Proof.Machine
end

section
/-!
PROOFS. Construction and the engine that waits (spec/70_reset_and_hazards.md R160 to R162, R164, spec/60_exceptions.md R153): the statements
O8 and O53.
-/
namespace Sys2Proof.Machine

/-- With no command in progress and none issued, only the case of an idle engine is left of what a step can do. -/
theorem step_of_noCommand {s : State} (idle : s.active = none) (noCommand : s.cmds = []) : step s = .next s := by
  obtain ⟨t, ht, what⟩ := step_cases s
  obtain ⟨i, busy, -⟩ | ⟨-, -, rfl⟩ | ⟨i, d, ds, -, issued, -⟩ | ⟨r, d, ds, -, issued, -⟩ := what
  · simp [idle] at busy
  · exact ht
  · simp [noCommand] at issued
  · simp [noCommand] at issued

/-- Settles O8: the engine after reset is idle, and no command has been issued to it. -/
theorem idleEngineStaysAsItIs : Obligations.IdleEngineStaysAsItIs :=
  ⟨fun _ => step_of_noCommand, step_of_noCommand rfl rfl⟩

/-- Driving a line low moves nothing in the FIFO loopback, which shifts on rising clock edges alone (R49). -/
theorem fifoAfterWrite_low (p : Pin) (s : State) : s.fifoAfterWrite p false = s.fifo := by
  cases line : s.cfg.line
  case fifoLoopback => cases p <;> simp [State.fifoAfterWrite, line, fifoAfterWrite]
  all_goals simp [State.fifoAfterWrite, line]

/-- The two writes of construction open no frame and close none, so a peer that is in no frame stays as it was (R161). -/
theorem create_writes_peer {s : State} (noFrame : s.peer.inframe = false) :
    ((s.pinWrite .clk false).pinWrite .ce false).peer = s.peer :=
  performAll_peer_of_noFrame (ops := [.clkLow, .ce false]) (fun _ _ => noFrame) (by simp)

/-- Pins that are apart from those of every other instance, and from the engine's own while its command is in progress, are held by
nobody (R153, R164). -/
theorem heldPins_overlap_eq_false {s : State} {others : List Pins} (pins : Pins)
    (apart : ∀ p ∈ others, ∀ x ∈ [pins.clk, pins.dat, pins.ce], x ≠ p.clk ∧ x ≠ p.dat ∧ x ≠ p.ce)
    (ownApart : s.busy = true →
      ∀ x ∈ [pins.clk, pins.dat, pins.ce], x ≠ s.cfg.pins.clk ∧ x ≠ s.cfg.pins.dat ∧ x ≠ s.cfg.pins.ce) :
    ∀ p ∈ s.heldPins others, pins.overlap p = false := by
  have heldApart : ∀ p ∈ s.heldPins others, ∀ x ∈ [pins.clk, pins.dat, pins.ce], x ≠ p.clk ∧ x ≠ p.dat ∧ x ≠ p.ce := by
    cases busy : s.busy
    · simpa only [heldPins_idle others busy] using apart
    · simpa only [heldPins_busy others busy] using List.forall_mem_cons.mpr ⟨ownApart busy, apart⟩
  intro p held
  refine Bool.eq_false_iff.mpr fun overlap => ?_
  obtain ⟨x, hx, shared⟩ := (Pins.overlap_iff pins p).mp overlap
  obtain ⟨notClk, notDat, notCe⟩ := heldApart p held x hx
  tauto

/-- Settles O53: the pins are distinct and held by nobody, so construction drives the clock and chip-select low from an empty trace, which
reaches neither the peer nor the queue, and sets every other register to its value at reset. -/
theorem createResetsTheEngine : Obligations.CreateResetsTheEngine := by
  intro s others c d e hcd hce hde apart ownApart noFrame
  have distinct : (c != d && c != e && d != e) = true := by simp [hcd, hce, hde]
  have free : ¬ (s.heldPins others).any (Pins.overlap ⟨c, d, e, distinct⟩) = true := by
    simpa using heldPins_overlap_eq_false ⟨c, d, e, distinct⟩ apart ownApart
  refine ⟨_, (dif_pos distinct).trans (if_neg free), rfl, rfl, rfl, rfl, rfl, rfl, rfl, rfl, rfl, rfl, rfl, rfl, ?_⟩
  exact { peer := create_writes_peer (s := { s with log := [] }) noFrame
          fifo := (fifoAfterWrite_low .ce _).trans (fifoAfterWrite_low .clk _)
          answers := rfl
          draws := rfl }

end Sys2Proof.Machine
end
